-- ==== Sys2Proof/Word.lean ====
section
/-! DEFINITION. The word types of the machine (spec/00_scope.md R8, R10). -/

namespace Sys2Proof

/-- An element of the program buffer, an opcode byte or an operand byte (R8). -/
abbrev Byte := BitVec 8

/-- The LOAD immediate (R8, R80). -/
abbrev Imm16 := BitVec 16

/-- A 32-bit pattern: a general register, the remainder register, the pc (R8, R9). Its signed reading is `BitVec.toInt`
(two's complement, R13; PRESUMED by the spec itself, log 8). -/
abbrev Word := BitVec 32

end Sys2Proof
end

