-- ==== Sys2Proof/Syntax.lean ====
section
/-! DEFINITION. The instructions: one constructor per row of spec/opcode_table.json. Operand bytes are held as the stream
gives them, a register index as a whole byte 0..255 (spec/30_encoding.md R78), so that an index above 31 reaches the check of
R105; fields stand in stream order B1, B2, B3. -/

namespace Sys2Proof

inductive Instr where
  /-- HALT, byte 0, format F0 (R200). -/
  | halt
  /-- LOAD, byte 10, format FRI: destination index, immediate (R130). -/
  | load (rd : Byte) (imm : Imm16)
  /-- ADD, byte 11, format F3R: first source, second source, destination (R140). -/
  | add (rs1 rs2 rd : Byte)
  /-- SUB, byte 12, format F3R (R141). -/
  | sub (rs1 rs2 rd : Byte)
  /-- MUL, byte 13, format F3R (R142). -/
  | mul (rs1 rs2 rd : Byte)
  /-- DIV, byte 14, format F3R (R143). -/
  | div (rs1 rs2 rd : Byte)
  /-- JUMP-ABSOLUTE, byte 15, format F1R (R160). -/
  | jumpAbsolute (ra : Byte)
  /-- JUMP-FORWARD, byte 16, format F1R (R161). -/
  | jumpForward (ra : Byte)
  /-- JUMP-BACKWARD, byte 17, format F1R (R162). -/
  | jumpBackward (ra : Byte)
  /-- EQUAL, byte 18, format F2RP: left operand, right operand, pad byte (R180). -/
  | equal (rs1 rs2 pad : Byte)
  /-- NOT-EQUAL, byte 19, format F2RP (R181). -/
  | notEqual (rs1 rs2 pad : Byte)
  /-- LESS-THAN, byte 20, format F2RP (R182). -/
  | lessThan (rs1 rs2 pad : Byte)
  /-- GREATER-THAN, byte 21, format F2RP (R183). -/
  | greaterThan (rs1 rs2 pad : Byte)
  /-- LESS-OR-EQUAL, byte 22, format F2RP (R184). -/
  | lessOrEqual (rs1 rs2 pad : Byte)
  /-- GREATER-OR-EQUAL, byte 23, format F2RP (R185). -/
  | greaterOrEqual (rs1 rs2 pad : Byte)
  /-- JUMP-IF-EQUAL, byte 24, format F1R (R163). -/
  | jumpIfEqual (ra : Byte)
  /-- PRINT, the reserved byte 254, format F0: the opcode decoder maps it to ILLEGAL (R83, R203). -/
  | print
  /-- NOP, byte 255, format F0 (R201). -/
  | nop
  /-- ILLEGAL, any byte of 1..9 and 25..253, format F0 (R202); it keeps the byte it was read from. -/
  | illegal (byte : Byte)
  deriving DecidableEq, Repr

end Sys2Proof
end

