-- ==== Sys2Proof/WellFormed.lean ====
section
/-! DEFINITION. Which instructions are well-formed: every register-index byte names a register (spec/30_encoding.md R78), and
an ILLEGAL's byte is one that the table's ILLEGAL row stands for (R82). An instruction that is not well-formed still has a
meaning: a bad index raises F_REG_INDEX (R222). -/

namespace Sys2Proof

/-- A byte that names one of the 32 registers (R78). -/
def validIndex (b : Byte) : Bool := decide (b.toNat ≤ 31)

/-- The bytes of the opcode table's ILLEGAL row: 1..9 and 25..253 (R82). -/
def illegalByte (b : Byte) : Bool :=
  decide (1 ≤ b.toNat ∧ b.toNat ≤ 9) || decide (25 ≤ b.toNat ∧ b.toNat ≤ 253)

/-- Well-formedness of an instruction, by format (R71, R86). The pad byte and the immediate may hold any value (R79, R80). -/
def Instr.wf : Instr → Bool
  | .halt | .print | .nop => true
  | .load rd _ => validIndex rd
  | .add a b d | .sub a b d | .mul a b d | .div a b d => validIndex a && validIndex b && validIndex d
  | .jumpAbsolute r | .jumpForward r | .jumpBackward r | .jumpIfEqual r => validIndex r
  | .equal a b _ | .notEqual a b _ | .lessThan a b _ | .greaterThan a b _ | .lessOrEqual a b _
  | .greaterOrEqual a b _ => validIndex a && validIndex b
  | .illegal b => illegalByte b

end Sys2Proof
end

