-- ==== Sys2Proof/Decode.lean ====
section
/-! DEFINITION. The instruction decoder and the encoder (spec/30_encoding.md). The decoder is total: it answers an instruction,
or names the opcode whose operand bytes are missing, or says that no byte is there. -/

namespace Sys2Proof

/-- The decoder's output values: 17 operations and ILLEGAL (R85). -/
inductive Opcode where
  | halt | load | add | sub | mul | div
  | jumpAbsolute | jumpForward | jumpBackward
  | equal | notEqual | lessThan | greaterThan | lessOrEqual | greaterOrEqual
  | jumpIfEqual | nop
  /-- ILLEGAL: every byte without a row of its own, 254 included (R82, R83). -/
  | igl
  deriving DecidableEq, Repr

/-- The role of an operand byte (R86). -/
inductive Role where
  | regR | regW | immHi | immLo | pad
  deriving DecidableEq, Repr

/-- The opcode map R81: from the opcode byte alone, in every state (R84, R85). -/
def decodeOpcode (b0 : Byte) : Opcode :=
  match b0.toNat with
  | 0 => .halt
  | 10 => .load
  | 11 => .add
  | 12 => .sub
  | 13 => .mul
  | 14 => .div
  | 15 => .jumpAbsolute
  | 16 => .jumpForward
  | 17 => .jumpBackward
  | 18 => .equal
  | 19 => .notEqual
  | 20 => .lessThan
  | 21 => .greaterThan
  | 22 => .lessOrEqual
  | 23 => .greaterOrEqual
  | 24 => .jumpIfEqual
  | 255 => .nop
  | _ => .igl

/-- The inverse map, defined for the 17 operations only: ILLEGAL has no canonical byte (R88, U13). -/
def encodeOpcode : Opcode → Option Byte
  | .halt => some 0
  | .load => some 10
  | .add => some 11
  | .sub => some 12
  | .mul => some 13
  | .div => some 14
  | .jumpAbsolute => some 15
  | .jumpForward => some 16
  | .jumpBackward => some 17
  | .equal => some 18
  | .notEqual => some 19
  | .lessThan => some 20
  | .greaterThan => some 21
  | .lessOrEqual => some 22
  | .greaterOrEqual => some 23
  | .jumpIfEqual => some 24
  | .nop => some 255
  | .igl => none

/-- The operand layout of an opcode, B1 first (R86). -/
def operandRoles : Opcode → List Role
  | .halt | .nop | .igl => []
  | .load => [.regW, .immHi, .immLo]
  | .add | .sub | .mul | .div => [.regR, .regR, .regW]
  | .jumpAbsolute | .jumpForward | .jumpBackward | .jumpIfEqual => [.regR]
  | .equal | .notEqual | .lessThan | .greaterThan | .lessOrEqual | .greaterOrEqual => [.regR, .regR, .pad]

/-- The number `n` of operand bytes of an opcode: 0, 1 or 3 (R86). -/
def operandCount (op : Opcode) : Nat := (operandRoles op).length

/-- What the decoder answers. -/
inductive Decoded where
  /-- No byte to decode. -/
  | noBytes
  /-- The opcode byte is there and an operand byte of it is missing; the opcode is named (R104). -/
  | truncated (op : Opcode)
  /-- An instruction and the bytes after it. -/
  | instr (i : Instr) (rest : List Byte)
  deriving DecidableEq, Repr

/-- Formats with one operand byte: F1R (R73). -/
def take1 (op : Opcode) (mk : Byte → Instr) : List Byte → Decoded
  | b1 :: rest => .instr (mk b1) rest
  | _ => .truncated op

/-- Formats with three operand bytes: FRI, F3R, F2RP (R74 to R76). -/
def take3 (op : Opcode) (mk : Byte → Byte → Byte → Instr) : List Byte → Decoded
  | b1 :: b2 :: b3 :: rest => .instr (mk b1 b2 b3) rest
  | _ => .truncated op

/-- The immediate of LOAD, high byte first: `B2 * 256 + B3` (R52, R80). -/
def immOfBytes (hi lo : Byte) : Imm16 := hi ++ lo

/-- The bytes of an immediate, high byte first (R52, R90). -/
def immHi (imm : Imm16) : Byte := imm.extractLsb' 8 8

/-- The low byte of an immediate (R52, R90). -/
def immLo (imm : Imm16) : Byte := imm.extractLsb' 0 8

/-- The label of an unrecognised byte: 254 is the reserved byte PRINT, every other is ILLEGAL (R82, R83; log 5). -/
def illegalInstr (b0 : Byte) : Instr := if b0 = 254 then .print else .illegal b0

/-- Read the operand bytes of an opcode, as its layout says, from the bytes after the opcode byte `b0` (R71 to R76, R86). -/
def decodeOperands (op : Opcode) (b0 : Byte) (rest : List Byte) : Decoded :=
  match op with
  | .halt => .instr .halt rest
  | .load => take3 .load (fun b1 b2 b3 => .load b1 (immOfBytes b2 b3)) rest
  | .add => take3 .add .add rest
  | .sub => take3 .sub .sub rest
  | .mul => take3 .mul .mul rest
  | .div => take3 .div .div rest
  | .jumpAbsolute => take1 .jumpAbsolute .jumpAbsolute rest
  | .jumpForward => take1 .jumpForward .jumpForward rest
  | .jumpBackward => take1 .jumpBackward .jumpBackward rest
  | .equal => take3 .equal .equal rest
  | .notEqual => take3 .notEqual .notEqual rest
  | .lessThan => take3 .lessThan .lessThan rest
  | .greaterThan => take3 .greaterThan .greaterThan rest
  | .lessOrEqual => take3 .lessOrEqual .lessOrEqual rest
  | .greaterOrEqual => take3 .greaterOrEqual .greaterOrEqual rest
  | .jumpIfEqual => take1 .jumpIfEqual .jumpIfEqual rest
  | .nop => .instr .nop rest
  | .igl => .instr (illegalInstr b0) rest

/-- Decode one instruction from the front of a byte list: the opcode byte decides everything else (R70, R81, R86). -/
def decode : List Byte → Decoded
  | [] => .noBytes
  | b0 :: rest => decodeOperands (decodeOpcode b0) b0 rest

/-- The opcode an instruction decodes from; PRINT and ILLEGAL are both the decoder value ILLEGAL (R83, R85). -/
def Instr.opcode : Instr → Opcode
  | .halt => .halt
  | .load _ _ => .load
  | .add _ _ _ => .add
  | .sub _ _ _ => .sub
  | .mul _ _ _ => .mul
  | .div _ _ _ => .div
  | .jumpAbsolute _ => .jumpAbsolute
  | .jumpForward _ => .jumpForward
  | .jumpBackward _ => .jumpBackward
  | .equal _ _ _ => .equal
  | .notEqual _ _ _ => .notEqual
  | .lessThan _ _ _ => .lessThan
  | .greaterThan _ _ _ => .greaterThan
  | .lessOrEqual _ _ _ => .lessOrEqual
  | .greaterOrEqual _ _ _ => .greaterOrEqual
  | .jumpIfEqual _ => .jumpIfEqual
  | .nop => .nop
  | .print | .illegal _ => .igl

/-- The operand bytes of an instruction in stream order (R71 to R76). -/
def Instr.operandBytes : Instr → List Byte
  | .halt | .nop | .print | .illegal _ => []
  | .load rd imm => [rd, immHi imm, immLo imm]
  | .add a b d | .sub a b d | .mul a b d | .div a b d => [a, b, d]
  | .jumpAbsolute r | .jumpForward r | .jumpBackward r | .jumpIfEqual r => [r]
  | .equal a b p | .notEqual a b p | .lessThan a b p | .greaterThan a b p | .lessOrEqual a b p
  | .greaterOrEqual a b p => [a, b, p]

/-- The length `L = 1 + n` of an instruction in bytes (R87). -/
def Instr.length (i : Instr) : Nat := 1 + operandCount i.opcode

/-- Is a byte of this role range-checked as a register index (R86)? -/
def Role.isIndex : Role → Bool
  | .regR | .regW => true
  | .immHi | .immLo | .pad => false

/-- The operand bytes that are register indices, in stream order (R86, R105). -/
def Instr.indexBytes (i : Instr) : List Byte :=
  ((operandRoles i.opcode).zip i.operandBytes).filterMap fun p => if p.1.isIndex then some p.2 else none

/-- The bytes of an instruction, defined for the 17 operations: ILLEGAL and PRINT have none (R88, R90, U13). -/
def Instr.encode (i : Instr) : Option (List Byte) :=
  (encodeOpcode i.opcode).map (· :: i.operandBytes)

/-- Byte `k` of an instruction numbered as spec/opcode_table.json numbers it: the first byte is bits 7..0. -/
def tableByte (w k : Nat) : Byte := BitVec.ofNat 8 (w / 256 ^ k)

/-- The four bytes (the longest instruction) of a table word of `nbits` bits, those above `nbits` zero. -/
def tableBytes (nbits w : Nat) : List Byte :=
  [tableByte (w % 2 ^ nbits) 0, tableByte (w % 2 ^ nbits) 1, tableByte (w % 2 ^ nbits) 2, tableByte (w % 2 ^ nbits) 3]

/-- The instruction the decoder reads from a table word. -/
def decodeTableWord (nbits w : Nat) : Option Instr :=
  match decode (tableBytes nbits w) with
  | .instr i _ => some i
  | _ => none

end Sys2Proof
end

