-- ==== Sys2Proof/Config.lean ====
section
/-! DEFINITION. The two parameters that a model of this hardware takes as arguments (spec/00_scope.md R9). A state holds them
in one field that nothing changes (log 1), so every statement about all states is a statement about every setting. There is no
free value: Execute-one is a function of the state alone (spec/10_state.md R44). -/

namespace Sys2Proof

/-- `ARITH_OVERFLOW`: what ADD, SUB, MUL and DIV do when the exact result does not fit 32 signed bits (R9, R150, R156). -/
inductive OverflowMode where
  | wrap
  | fault
  deriving DecidableEq, Repr

/-- The parameters of the model (R9, R44). -/
structure Config where
  /-- `ARITH_OVERFLOW`. -/
  arithOverflow : OverflowMode
  /-- `PROG_CAPACITY`, the greatest length of the program buffer: OPEN, any value of 0 .. 2^32 - 1. -/
  progCapacity : BitVec 32
  deriving DecidableEq, Repr

/-- The setting `State.reset` has: WRAP, the spec's default (R9, decision D4; log 3), and the greatest capacity the spec
admits (DESIGN CHOICE, unsafe: the spec leaves PROG_CAPACITY open, log 2). -/
def Config.standard : Config where
  arithOverflow := .wrap
  progCapacity := 0xFFFFFFFF

end Sys2Proof
end

