-- ==== Sys2Proof/Machine/State.lean ====
section
/-! DEFINITION. The state of the engine (spec/10_state.md) and its value after Initialize, the power-on reset (R45, R250). -/

namespace Sys2Proof.Machine

/-- The run-state register (R35). -/
inductive RunState where
  | running
  | stopped
  deriving DecidableEq, Repr

/-- The stop-cause register, as the closed enumeration that R211 allows; codes 9 to 15 do not exist (U16). -/
inductive StopCause where
  /-- NONE, code 0: the latest Execute-one returned Continue, or none has run since Initialize or Reset (R36). -/
  | none
  /-- HALT, code 1 (R213). -/
  | halt
  /-- ILLEGAL, code 2 (R214). -/
  | illegal
  /-- END, code 3 (R215). -/
  | atEnd
  /-- F_TRUNCATED, code 4 (R221). -/
  | truncated
  /-- F_REG_INDEX, code 5 (R222). -/
  | regIndex
  /-- F_DIV_ZERO, code 6 (R223). -/
  | divZero
  /-- F_BAD_JUMP, code 7 (R224). -/
  | badJump
  /-- F_OVERFLOW, code 8 (R225). -/
  | overflow
  deriving DecidableEq, Repr

/-- The program buffer: one cell per byte, the k-th cell at address k (R40, R55; the canonical form is `Memory.wf`). An address
with no cell holds no byte at all (R56). -/
abbrev Memory := List Host.Cell

/-- Every piece of state the spec gives the machine (R38, R40, R45), and the model's parameters (R44). The length `len` of the
buffer is `State.len`, the number of its cells (log 6). -/
structure State where
  /-- The general registers x[0] .. x[31] (R20). -/
  x : Vector Word 32
  /-- The program counter (R25). -/
  pc : Word
  /-- The remainder register, a 32-bit pattern (R32, R33). -/
  rem : Word
  /-- The equivalence flag (R30). -/
  eq : Bool
  /-- The program buffer (R40). -/
  prog : Memory
  /-- The run-state register (R35). -/
  runState : RunState
  /-- The stop-cause register (R36). -/
  stopCause : StopCause
  /-- Not state of the spec: the parameters the model takes as arguments (R9, R44; log 1). Nothing changes them. -/
  cfg : Config
  deriving DecidableEq, Repr

/-- Why the model stops with no next state. The spec's own faults are not here: each is a next state (R230; log 7). -/
inductive Fault where
  /-- Raised by `step` when a fetch below `len` finds no cell at its address: only in a state whose buffer is not in canonical
  form (`Memory.wf` false), which no host operation builds and no step leads to. Safe: the model stops, and the spec has no
  such state (R40; log 6). -/
  | noProgramByte
  deriving DecidableEq, Repr

/-- Why the model gives an operation no meaning. -/
inductive Refusal where
  /-- An instruction with no meaning yet; raised by an arm of `exec` only. No arm raises it. Safe. -/
  | notModelled (mnemonic : String)
  /-- Raised by the host operation Append-byte on a buffer of PROG_CAPACITY bytes (R121, U9): nothing changes. Safe: the
  source's software would grow its buffer. -/
  | bufferFull
  /-- Raised by the host operation Load-program with more bytes than PROG_CAPACITY (R122, U14): nothing changes. Safe. -/
  | programTooLong
  deriving DecidableEq, Repr

/-- The state after Initialize, for given parameters (R45, R119, R251). -/
def State.initial (cfg : Config) : State where
  x := Vector.replicate 32 0
  pc := 0
  rem := 0
  eq := false
  prog := []
  runState := .running
  stopCause := .none
  cfg := cfg

/-- The machine right after power-on reset (R250, R251), with the standard parameters (logs 2, 3). -/
def State.reset : State := State.initial Config.standard

end Sys2Proof.Machine
end

