-- ==== Sys2Proof/Machine/Ops.lean ====
section
/-! DEFINITION. The named operations over the program buffer, the registers and the status registers; taking a fault
(spec/60_exceptions.md R230); and the fetch, stages 0 to 3 of Execute-one (spec/40_sequencer_and_host.md R101 to R104). -/

namespace Sys2Proof.Machine

/-! ### The program buffer -/

/-- The cells of `m` have the addresses `k`, `k + 1`, … in order. -/
def Memory.wfFrom : Nat → Memory → Bool
  | _, [] => true
  | k, (a, _) :: m => decide (a = k) && Memory.wfFrom (k + 1) m

/-- The canonical form of the program buffer: addresses 0, 1, …, len - 1 in order (R40, R55). An unlisted address holds no byte,
so no entry can equal what an unlisted address reads as. -/
def Memory.wf (m : Memory) : Bool := Memory.wfFrom 0 m

/-- The byte at an address, or none where there is no byte (R40, R56). -/
def Memory.get : Memory → Nat → Option Byte
  | [], _ => none
  | (k, b) :: m, a => if k = a then some b else Memory.get m a

/-- `MemRead(a, n)`: the bytes at `a .. a + n - 1`, lowest address first (R11, R54); none if one of them does not exist. -/
def Memory.read (m : Memory) : Nat → Nat → Option (List Byte)
  | _, 0 => some []
  | a, n + 1 =>
    match m.get a, Memory.read m (a + 1) n with
    | some b, some bs => some (b :: bs)
    | _, _ => none

/-- The cells of a list of bytes, the first at address `k`. -/
def Memory.ofBytesFrom : Nat → List Byte → Memory
  | _, [] => []
  | k, b :: bs => (k, b) :: Memory.ofBytesFrom (k + 1) bs

/-- The buffer that holds exactly the given bytes (R122). -/
def Memory.ofBytes (bs : List Byte) : Memory := Memory.ofBytesFrom 0 bs

/-- The bytes of the buffer in address order (R124). -/
def Memory.bytes (m : Memory) : List Byte := m.map Prod.snd

/-- One byte pushed to the end of the buffer: `prog[len] <- b` (R121). -/
def Memory.push (m : Memory) (b : Byte) : Memory := m ++ [(m.length, b)]

/-- The buffer with `bs` at address `a` and every other byte kept; bytes between the old end and `a` are NOP, which the fetch
at `a` needs to exist and no step executes on the way. Used by `State.withFetchWord` alone (log 9). -/
def Memory.place (m : Memory) (a : Nat) (bs : List Byte) : Memory :=
  Memory.ofBytes
    ((m.bytes ++ List.replicate (a - m.length) 0xFF).take a ++ bs ++ m.bytes.drop (a + bs.length))

/-- The length `len` of the program buffer in bytes (R40, R41). -/
def State.len (s : State) : Nat := s.prog.length

/-! ### Registers -/

/-- `x[i]` as a 32-bit pattern. -/
def State.reg (s : State) (i : Fin 32) : Word := s.x[i.val]

/-- `x[i]` as the signed integer of R11. -/
def State.sreg (s : State) (i : Fin 32) : Int := (s.reg i).toInt

/-- `x[i] <- v` (R11). No register is hardwired (R21). -/
def State.setReg (s : State) (i : Fin 32) (v : Word) : State := { s with x := s.x.set i.val v }

/-- `pc <- t` (R11). -/
def State.setPc (s : State) (t : Word) : State := { s with pc := t }

/-- `rem <- v` (R11). -/
def State.setRem (s : State) (v : Word) : State := { s with rem := v }

/-- `eq <- b` (R11). -/
def State.setEq (s : State) (b : Bool) : State := { s with eq := b }

/-! ### The end of an Execute-one -/

/-- The bit of the run-state register (R35). -/
def RunState.bit : RunState → BitVec 1
  | .running => 1
  | .stopped => 0

/-- The code of a cause (R211). -/
def StopCause.code : StopCause → BitVec 4
  | .none => 0
  | .halt => 1
  | .illegal => 2
  | .atEnd => 3
  | .truncated => 4
  | .regIndex => 5
  | .divZero => 6
  | .badJump => 7
  | .overflow => 8

/-- The fault codes, the sticky causes (R37, R211). -/
def StopCause.isFault : StopCause → Bool
  | .truncated | .regIndex | .divZero | .badJump | .overflow => true
  | .none | .halt | .illegal | .atEnd => false

/-- The engine is faulted (R37). -/
def State.faulted (s : State) : Bool := s.stopCause.isFault

/-- The signal Execute-one returns (R18, R100). -/
inductive Signal where
  | cont
  | stop
  deriving DecidableEq, Repr

/-- The signal of the Execute-one that left this state: Stop exactly when it left a cause other than NONE (R36, R101, R108,
R210; DEDUCED, log 7). -/
def State.signal (s : State) : Signal := if s.stopCause = .none then .cont else .stop

/-- The status on `Continue` (R108). -/
def State.resume (s : State) : State := { s with runState := .running, stopCause := .none }

/-- `stop(cause)`: keep every effect so far, set the status (R212). -/
def State.stop (s : State) (c : StopCause) : State := { s with runState := .stopped, stopCause := c }

/-- The sequential advance by `n` bytes from `pc0` (R107). In every step of the machine the sum fits: stage 3 established
`pc0 + n ≤ len` (log 4). -/
def State.advance (s : State) (n : Nat) : State := s.setPc (s.pc + BitVec.ofNat 32 n)

/-- Taking a fault, `raise F`: on the state in which Execute-one began, so that nothing but the consumption of the opcode byte
remains of the instruction: `pc <- pc0 + 1` and the status, nothing else (R230, R231). There is no handler, nothing is saved,
and no return beside Reset and Initialize (R233). -/
def State.raiseFault (s : State) (f : StopCause) : State := (s.advance 1).stop f

/-- Stages 6 and 7 for an instruction of `n` bytes that neither jumps nor stops: `pc <- pc0 + n`, Continue (R107, R108). -/
def State.finish (s : State) (n : Nat) : Host.Outcome State Fault Refusal := .next (s.advance n).resume

/-- The end of an Execute-one that raises `f` (R230). -/
def State.raised (s : State) (f : StopCause) : Host.Outcome State Fault Refusal := .next (s.raiseFault f)

/-! ### Fetch: stages 0 to 3 -/

/-- What stages 0 to 3 of Execute-one find. -/
inductive Fetched where
  /-- Stage 0: the engine is faulted (R101). -/
  | faulted
  /-- Stage 1: `pc >= len` (R102). -/
  | atEnd
  /-- Stage 3: an operand byte is missing (R104). -/
  | truncated
  /-- A byte below `len` is missing: the buffer is not in canonical form (log 6). -/
  | noByte
  /-- The instruction at `pc`. -/
  | instr (i : Instr)
  deriving DecidableEq, Repr

/-- What the decoder's answer means to the sequencer. -/
def Fetched.ofDecoded : Decoded → Fetched
  | .noBytes => .atEnd
  | .truncated _ => .truncated
  | .instr i _ => .instr i

/-- Stage 3: with the opcode byte read at `pc0`, check that the operand bytes exist, then read them all (R104). -/
def State.fetchOperands (s : State) (b0 : Byte) : Fetched :=
  if s.len < s.pc.toNat + 1 + operandCount (decodeOpcode b0) then .truncated
  else
    match s.prog.read (s.pc.toNat + 1) (operandCount (decodeOpcode b0)) with
    | some bs => .ofDecoded (decode (b0 :: bs))
    | none => .noByte

/-- Stages 0 to 3 in their order (R101 to R104, R226). -/
def State.fetch (s : State) : Fetched :=
  if s.faulted then .faulted
  else if s.len ≤ s.pc.toNat then .atEnd
  else
    match s.prog.get s.pc.toNat with
    | some b0 => s.fetchOperands b0
    | none => .noByte

/-- The state in which the instruction with bytes `bs` is the next one fetched: the bytes stand at `pc`, and a sticky fault,
which would refuse the fetch, is cleared (log 9). -/
def State.withFetchBytes (s : State) (bs : List Byte) : State :=
  let t := { s with prog := s.prog.place s.pc.toNat bs }
  if t.faulted then t.resume else t

end Sys2Proof.Machine
end

