-- ==== Sys2Proof/Machine/Operands.lean ====
section
/-! DEFINITION. Operand forms: register indices (stage 4 of Execute-one, spec/40_sequencer_and_host.md R105), the zero-extended
immediate (spec/30_encoding.md R80), and the narrowing of exact integers to a register (spec/00_scope.md R11, R12). -/

namespace Sys2Proof.Machine

/-- The register a register-index byte names: 0..31, none above; all eight bits take part (R23, R78). -/
def regIndex (b : Byte) : Option (Fin 32) :=
  if h : b.toNat < 32 then some ⟨b.toNat, h⟩ else none

/-- One register-index check of stage 4: go on with the register, or raise F_REG_INDEX (R105, R222). An instruction makes its
checks in the order B1, B2, B3, before any of its effects. -/
def withReg (b : Byte) (s : State) (k : Fin 32 → Host.Outcome State Fault Refusal) :
    Host.Outcome State Fault Refusal :=
  match regIndex b with
  | some i => k i
  | none => s.raised .regIndex

/-- `zext_32` of the immediate (R11, R80). -/
def zext32 (imm : Imm16) : Word := imm.setWidth 32

/-- `fits32(v)` (R11). -/
def fits32 (v : Int) : Bool := decide (-2147483648 ≤ v ∧ v ≤ 2147483647)

/-- `bits32(v)`, the pattern `v mod 2^32`; as a register value it is `wrap32(v)` (R11, R13). -/
def bits32 (v : Int) : Word := BitVec.ofInt 32 v

/-- `wrap32(v) = toS32(bits32(v))` (R11). -/
def wrap32 (v : Int) : Int := (bits32 v).toInt

/-- `tdiv(a, b)`, the quotient rounded toward zero (R11, R152; PRESUMED by the spec, log 8). -/
def tdiv (a b : Int) : Int := Int.tdiv a b

/-- `trem(a, b) = a - b * tdiv(a, b)` (R11, R152). -/
def trem (a b : Int) : Int := a - b * tdiv a b

/-- The result of an arithmetic instruction narrowed to a register: wrapped, or F_OVERFLOW when it does not fit and
`ARITH_OVERFLOW` is FAULT (R150, R156). -/
def State.narrow (s : State) (v : Int) (k : Word → Host.Outcome State Fault Refusal) :
    Host.Outcome State Fault Refusal :=
  if fits32 v = false ∧ s.cfg.arithOverflow = .fault then s.raised .overflow else k (bits32 v)

/-- A jump to the exact target `t`: Continue with `pc <- t`, or F_BAD_JUMP when `t` is no value of the pc (R170). -/
def State.jumpTo (s : State) (t : Int) : Host.Outcome State Fault Refusal :=
  if 0 ≤ t ∧ t ≤ 4294967295 then .next (s.setPc (BitVec.ofInt 32 t)).resume else s.raised .badJump

/-- The register value of a jump, which must be non-negative (R170). -/
def State.withJumpValue (s : State) (i : Fin 32) (k : Int → Host.Outcome State Fault Refusal) :
    Host.Outcome State Fault Refusal :=
  if s.sreg i < 0 then s.raised .badJump else k (s.sreg i)

end Sys2Proof.Machine
end

