-- ==== Sys2Proof/Machine/Arith.lean ====
section
/-! DEFINITION. ADD, SUB, MUL, DIV (spec/42_arithmetic.md). -/

namespace Sys2Proof.Machine

/-- The form of ADD, SUB and MUL: three index checks, both sources read as signed integers before the write, the exact result
narrowed (R105, R150, R156, R157). -/
def State.arith (s : State) (op : Int → Int → Int) (rs1 rs2 rd : Byte) : Host.Outcome State Fault Refusal :=
  withReg rs1 s fun a =>
  withReg rs2 s fun b =>
  withReg rd s fun d =>
  s.narrow (op (s.sreg a) (s.sreg b)) fun w => (s.setReg d w).finish 4

/-- ADD (R140). -/
def execAdd (rs1 rs2 rd : Byte) (s : State) : Host.Outcome State Fault Refusal :=
  s.arith (fun a b => a + b) rs1 rs2 rd

/-- SUB: the first source minus the second (R141; the source leaves the order to a reading, log 14). -/
def execSub (rs1 rs2 rd : Byte) (s : State) : Host.Outcome State Fault Refusal :=
  s.arith (fun a b => a - b) rs1 rs2 rd

/-- MUL: the low 32 bits of the signed product (R142). -/
def execMul (rs1 rs2 rd : Byte) (s : State) : Host.Outcome State Fault Refusal :=
  s.arith (fun a b => a * b) rs1 rs2 rd

/-- DIV: F_REG_INDEX before F_DIV_ZERO before F_OVERFLOW; then the quotient to the destination and the remainder's pattern to
`rem` (R143, R153 to R156, R226). -/
def execDiv (rs1 rs2 rd : Byte) (s : State) : Host.Outcome State Fault Refusal :=
  withReg rs1 s fun a =>
  withReg rs2 s fun b =>
  withReg rd s fun d =>
  if s.sreg b = 0 then s.raised .divZero
  else
    s.narrow (tdiv (s.sreg a) (s.sreg b)) fun q =>
      ((s.setReg d q).setRem (bits32 (trem (s.sreg a) (s.sreg b)))).finish 4

end Sys2Proof.Machine
end

