-- ==== Sys2Proof/Machine/Flags.lean ====
section
/-! DEFINITION. The one flag computation: the six signed relations that write `eq` (spec/44_compare.md R190, R191). No other
instruction computes a flag (spec/10_state.md R30, spec/42_arithmetic.md R158). -/

namespace Sys2Proof.Machine

/-- The relations of the comparisons (R180 to R185). -/
inductive Relation where
  | eq | ne | lt | gt | le | ge
  deriving DecidableEq, Repr

/-- The relation on signed register values, the first operand on the left (R190). -/
def Relation.holds : Relation → Int → Int → Bool
  | .eq, a, b => decide (a = b)
  | .ne, a, b => decide (a ≠ b)
  | .lt, a, b => decide (a < b)
  | .gt, a, b => decide (a > b)
  | .le, a, b => decide (a ≤ b)
  | .ge, a, b => decide (a ≥ b)

/-- A comparison: both index bytes checked, `eq` written whatever it was, the pad byte ignored (R79, R105, R191). -/
def State.compare (s : State) (r : Relation) (rs1 rs2 : Byte) : Host.Outcome State Fault Refusal :=
  withReg rs1 s fun a =>
  withReg rs2 s fun b =>
  (s.setEq (r.holds (s.sreg a) (s.sreg b))).finish 4

end Sys2Proof.Machine
end

