-- ==== Sys2Proof/Machine/Compare.lean ====
section
/-! DEFINITION. The six comparisons (spec/44_compare.md). The pad byte is an operand of each and has no effect (R79, R192). -/

namespace Sys2Proof.Machine

/-- EQUAL (R180). -/
def execEqual (rs1 rs2 _pad : Byte) (s : State) : Host.Outcome State Fault Refusal := s.compare .eq rs1 rs2

/-- NOT-EQUAL (R181). -/
def execNotEqual (rs1 rs2 _pad : Byte) (s : State) : Host.Outcome State Fault Refusal := s.compare .ne rs1 rs2

/-- LESS-THAN (R182). -/
def execLessThan (rs1 rs2 _pad : Byte) (s : State) : Host.Outcome State Fault Refusal := s.compare .lt rs1 rs2

/-- GREATER-THAN (R183). -/
def execGreaterThan (rs1 rs2 _pad : Byte) (s : State) : Host.Outcome State Fault Refusal := s.compare .gt rs1 rs2

/-- LESS-OR-EQUAL (R184). -/
def execLessOrEqual (rs1 rs2 _pad : Byte) (s : State) : Host.Outcome State Fault Refusal := s.compare .le rs1 rs2

/-- GREATER-OR-EQUAL (R185). -/
def execGreaterOrEqual (rs1 rs2 _pad : Byte) (s : State) : Host.Outcome State Fault Refusal := s.compare .ge rs1 rs2

end Sys2Proof.Machine
end

