-- ==== Sys2Proof/Machine/Jump.lean ====
section
/-! DEFINITION. The four jumps (spec/43_jumps.md). `s.pc` is `pc0`, so the already advanced pc is `pc0 + 2` (R175). -/

namespace Sys2Proof.Machine

/-- JUMP-ABSOLUTE: `pc <- x[B1]` (R160). -/
def execJumpAbsolute (ra : Byte) (s : State) : Host.Outcome State Fault Refusal :=
  withReg ra s fun r => s.withJumpValue r fun v => s.jumpTo v

/-- JUMP-FORWARD: `pc <- (pc0 + 2) + x[B1]` (R161). -/
def execJumpForward (ra : Byte) (s : State) : Host.Outcome State Fault Refusal :=
  withReg ra s fun r => s.withJumpValue r fun v => s.jumpTo ((s.pc.toNat : Int) + 2 + v)

/-- JUMP-BACKWARD: `pc <- (pc0 + 2) - x[B1]` (R162). -/
def execJumpBackward (ra : Byte) (s : State) : Host.Outcome State Fault Refusal :=
  withReg ra s fun r => s.withJumpValue r fun v => s.jumpTo ((s.pc.toNat : Int) + 2 - v)

/-- JUMP-IF-EQUAL: the index is checked always, the register's value examined only when `eq` is true; `eq` is not written
(R105, R163). -/
def execJumpIfEqual (ra : Byte) (s : State) : Host.Outcome State Fault Refusal :=
  withReg ra s fun r =>
    if s.eq then s.withJumpValue r fun v => s.jumpTo v else s.finish 2

end Sys2Proof.Machine
end

