-- ==== Sys2Proof/Machine/Load.lean ====
section
/-! DEFINITION. LOAD (spec/41_load.md). -/

namespace Sys2Proof.Machine

/-- LOAD: `x[B1] <- zext_32(B2 * 256 + B3)` (R130). -/
def execLoad (rd : Byte) (imm : Imm16) (s : State) : Host.Outcome State Fault Refusal :=
  withReg rd s fun d => (s.setReg d (zext32 imm)).finish 4

end Sys2Proof.Machine
end

