-- ==== Sys2Proof/Machine/System.lean ====
section
/-! DEFINITION. HALT, NOP, ILLEGAL and the reserved byte PRINT (spec/45_system.md). All have length 1, so the opcode byte's
consumption is the whole advance (R107). -/

namespace Sys2Proof.Machine

/-- HALT: `pc <- pc0 + 1`, stop with cause HALT; not sticky (R200, R213). -/
def execHalt (s : State) : Host.Outcome State Fault Refusal := .next ((s.advance 1).stop .halt)

/-- NOP: `pc <- pc0 + 1`, Continue (R201). -/
def execNop (s : State) : Host.Outcome State Fault Refusal := s.finish 1

/-- ILLEGAL: `pc <- pc0 + 1`, stop with cause ILLEGAL; not a fault, not sticky (R202, R214). -/
def execIllegal (_byte : Byte) (s : State) : Host.Outcome State Fault Refusal := .next ((s.advance 1).stop .illegal)

/-- PRINT, byte 254: exactly as ILLEGAL; nothing is printed (R203). -/
def execPrint (s : State) : Host.Outcome State Fault Refusal := .next ((s.advance 1).stop .illegal)

end Sys2Proof.Machine
end

