-- ==== Sys2Proof/Machine/Dispatch.lean ====
section
/-! DEFINITION. Stages 4 to 7 of Execute-one by instruction (spec/40_sequencer_and_host.md R105 to R108): one arm per constructor
of `Instr`, each a call of that instruction's meaning. -/

namespace Sys2Proof.Machine

/-- Execute an instruction in the state in which its Execute-one began (`s.pc` is `pc0`). -/
def exec (i : Instr) (s : State) : Host.Outcome State Fault Refusal :=
  match i with
  | .halt => Sys2Proof.Machine.execHalt s
  | .load rd imm => Sys2Proof.Machine.execLoad rd imm s
  | .add rs1 rs2 rd => Sys2Proof.Machine.execAdd rs1 rs2 rd s
  | .sub rs1 rs2 rd => Sys2Proof.Machine.execSub rs1 rs2 rd s
  | .mul rs1 rs2 rd => Sys2Proof.Machine.execMul rs1 rs2 rd s
  | .div rs1 rs2 rd => Sys2Proof.Machine.execDiv rs1 rs2 rd s
  | .jumpAbsolute ra => Sys2Proof.Machine.execJumpAbsolute ra s
  | .jumpForward ra => Sys2Proof.Machine.execJumpForward ra s
  | .jumpBackward ra => Sys2Proof.Machine.execJumpBackward ra s
  | .equal rs1 rs2 pad => Sys2Proof.Machine.execEqual rs1 rs2 pad s
  | .notEqual rs1 rs2 pad => Sys2Proof.Machine.execNotEqual rs1 rs2 pad s
  | .lessThan rs1 rs2 pad => Sys2Proof.Machine.execLessThan rs1 rs2 pad s
  | .greaterThan rs1 rs2 pad => Sys2Proof.Machine.execGreaterThan rs1 rs2 pad s
  | .lessOrEqual rs1 rs2 pad => Sys2Proof.Machine.execLessOrEqual rs1 rs2 pad s
  | .greaterOrEqual rs1 rs2 pad => Sys2Proof.Machine.execGreaterOrEqual rs1 rs2 pad s
  | .jumpIfEqual ra => Sys2Proof.Machine.execJumpIfEqual ra s
  | .print => Sys2Proof.Machine.execPrint s
  | .nop => Sys2Proof.Machine.execNop s
  | .illegal byte => Sys2Proof.Machine.execIllegal byte s

end Sys2Proof.Machine
end

