-- ==== Sys2Proof/Machine/Step.lean ====
section
/-! DEFINITION. Execute-one, the single step of the machine (spec/40_sequencer_and_host.md R100 to R109). -/

namespace Sys2Proof.Machine

/-- Execute-one. Stages 0 to 3 are `State.fetch`; stages 4 to 7 of the instruction it finds are `exec`. -/
def step (s : State) : Host.Outcome State Fault Refusal :=
  match s.fetch with
  | .faulted => .next s
  | .atEnd => .next (s.stop .atEnd)
  | .truncated => s.raised .truncated
  | .noByte => .fault .noProgramByte
  | .instr i => exec i s

/-- `s` with the instruction of a table word stored where the next step fetches it (log 9). -/
def State.withFetchWord (s : State) (nbits w : Nat) : State := s.withFetchBytes (tableBytes nbits w)

end Sys2Proof.Machine
end

