-- ==== Sys2Proof/Machine/Driver.lean ====
section
/-! DEFINITION. The host operations (spec/40_sequencer_and_host.md R119 to R126) and Run (R110, R111). They happen only between
Execute-ones (spec/20_memory.md R63; log 12). -/

namespace Sys2Proof.Machine

/-- The operations of the table R126 that end at once; Run, which need not return, is `run` and `RunsTo` below. -/
inductive Command where
  | initEngine
  | construct
  | appendByte (b : Byte)
  | loadProgram (bs : List Byte)
  | reset (clear : Bool)
  | executeOne
  deriving DecidableEq, Repr

/-- Initialize: every piece of state to its value of R45; the parameters are no state and stay (R119; log 1). -/
def State.initialized (s : State) : State := State.initial s.cfg

/-- Append-byte: one byte more at the end, nothing else; refused on a full buffer (R121, U9). -/
def hostAppendByte (b : Byte) (s : State) : Host.Outcome State Fault Refusal :=
  if s.len < s.cfg.progCapacity.toNat then .next { s with prog := s.prog.push b } else .refused .bufferFull

/-- Load-program: the buffer replaced, nothing else; refused above the capacity (R122, U14). -/
def hostLoadProgram (bs : List Byte) (s : State) : Host.Outcome State Fault Refusal :=
  if bs.length ≤ s.cfg.progCapacity.toNat then .next { s with prog := Memory.ofBytes bs } else .refused .programTooLong

/-- Reset(clear): registers and pc to 0, the status cleared, the buffer emptied on request; `rem` and `eq` stay (R123, R252). -/
def hostReset (clear : Bool) (s : State) : State :=
  { s with
    x := Vector.replicate 32 0
    pc := 0
    runState := .running
    stopCause := .none
    prog := if clear then [] else s.prog }

/-- One host operation on an idle engine (R126). -/
def command (c : Command) (s : State) : Host.Outcome State Fault Refusal :=
  match c with
  | .initEngine => .next s.initialized
  | .construct => .next s.initialized
  | .appendByte b => hostAppendByte b s
  | .loadProgram bs => hostLoadProgram bs s
  | .reset clear => .next (hostReset clear s)
  | .executeOne => step s

/-- How a run under fuel ends. -/
inductive RunResult where
  /-- An Execute-one returned Stop and left this state: Run returns (R110). -/
  | returned (s : State)
  /-- The fuel is spent in this state and Run has not returned (R111; log 10). -/
  | outOfFuel (s : State)
  /-- A step ended with a fault of the model (log 6). -/
  | fault (f : Fault)
  /-- A step was refused. -/
  | refused (r : Refusal)
  deriving DecidableEq, Repr

/-- Run under fuel: at most `k` Execute-ones, until one returns Stop (R110, R111). -/
def run : Nat → State → RunResult
  | 0, s => .outOfFuel s
  | k + 1, s =>
    match step s with
    | .next t => if t.signal = .stop then .returned t else run k t
    | .fault f => .fault f
    | .refused r => .refused r

/-- Run as the partial operation it is: it returns in state `t` (R110, R111). -/
def RunsTo (s t : State) : Prop := ∃ k, run k s = .returned t

/-- The front end's "execute" command as the host composes it: Reset(false), then Run (R125). -/
def hostExecute (k : Nat) (s : State) : RunResult := run k (hostReset false s)

/-- A series of Append-byte calls, stopping at the first refusal (R125). -/
def hostAppendAll : List Byte → State → Host.Outcome State Fault Refusal
  | [], s => .next s
  | b :: bs, s =>
    match hostAppendByte b s with
    | .next t => hostAppendAll bs t
    | .fault f => .fault f
    | .refused r => .refused r

/-- One accepted line of the interactive front end: its bytes appended, then one Execute-one (R125). -/
def hostLine (bs : List Byte) (s : State) : Host.Outcome State Fault Refusal :=
  match hostAppendAll bs s with
  | .next t => step t
  | .fault f => .fault f
  | .refused r => .refused r

/-! The accessors (R43, R124) are the fields of `State`, with `State.len`, `Memory.bytes`, `RunState.bit` and `StopCause.code`;
they change nothing. The signed remainder is `toS32(rem)` (R33): -/

/-- The signed remainder of the latest completed DIV (R33). -/
def State.signedRem (s : State) : Int := s.rem.toInt

end Sys2Proof.Machine
end

