-- ==== Sys2Proof/Safety.lean ====
section
/-! DEFINITION. What the claims call a good state, a completed instruction and a fault taken. -/

namespace Sys2Proof.Machine

/-- The two status registers agree (spec/10_state.md R37). -/
abbrev State.StatusAgrees (s : State) : Prop := s.runState = .running ↔ s.stopCause = .none

/-- The invariant of the machine: the program buffer in canonical form, its length within PROG_CAPACITY (R40), the status
registers in agreement (R37). -/
abbrev State.Inv (s : State) : Prop :=
  s.prog.wf = true ∧ s.len ≤ s.cfg.progCapacity.toNat ∧ s.StatusAgrees

/-- What no instruction may change: every byte of the program buffer, its length, and the parameters
(spec/20_memory.md R57, spec/60_exceptions.md R240). -/
abbrev State.SameProgram (s t : State) : Prop :=
  (∀ a, t.prog.get a = s.prog.get a) ∧ t.prog = s.prog ∧ t.cfg = s.cfg

/-- Every general register, the remainder register and the flag are as they were. -/
abbrev State.SameData (s t : State) : Prop := (∀ j, t.reg j = s.reg j) ∧ t.rem = s.rem ∧ t.eq = s.eq

/-- Every general register but `d` is as it was. -/
abbrev State.SameRegsBut (s t : State) (d : Fin 32) : Prop := ∀ j, j ≠ d → t.reg j = s.reg j

/-- The status an instruction that completes leaves: RUNNING, NONE, signal Continue (R108). -/
abbrev State.Continues (t : State) : Prop := t.runState = .running ∧ t.stopCause = .none ∧ t.signal = .cont

/-- The status a stop or a fault leaves: STOPPED, the cause, signal Stop (R108, R212, R230). -/
abbrev State.StopsWith (t : State) (c : StopCause) : Prop := t.runState = .stopped ∧ t.stopCause = c ∧ t.signal = .stop

/-- What the fault `f` leaves of an Execute-one that began in `s`: `pc0 + 1`, the status, and nothing else (R230, R231). -/
abbrev State.FaultedFrom (s t : State) (f : StopCause) : Prop :=
  s.SameData t ∧ s.SameProgram t ∧ t.pc = s.pc + 1 ∧ t.StopsWith f

/-- The Execute-one that began in `s` takes the fault `f`. -/
abbrev TakesFault (o : Host.Outcome State Fault Refusal) (s : State) (f : StopCause) : Prop :=
  ∃ t, o = .next t ∧ s.FaultedFrom t f

/-- The engine is good, not faulted, and the byte at the pc is `b0`: stages 0 to 2 reach this opcode (R101 to R103). -/
abbrev State.AtOpcode (s : State) (b0 : Byte) : Prop :=
  s.Inv ∧ s.faulted = false ∧ s.prog.get s.pc.toNat = some b0

/-- The bytes after the opcode byte are `bs`, in stream order (R104). -/
abbrev State.OperandsAre (s : State) (bs : List Byte) : Prop :=
  s.prog.read (s.pc.toNat + 1) bs.length = some bs

end Sys2Proof.Machine
end

