-- ==== Sys2Proof/Certificates/Slice0/Obligations.lean ====
section
/-! DEFINITION. The statements for the provers. Each docstring names the rule of spec/ it formalises. "The state a fault leaves"
is `State.FaultedFrom`: the spec's decision D8 (spec/60_exceptions.md R230, R231). -/

open Sys2Proof Sys2Proof.Machine

/-! ### Shapes shared by several statements -/

/-- An exact integer is representable in a register: R11's range. -/
abbrev Sys2Proof.Claims.Fits (v : Int) : Prop := -2147483648 ≤ v ∧ v ≤ 2147483647

/-- `w` is the register value congruent to `v` modulo 2^32 (R150): a register's signed value is in R11's range, so this names
one value; when `v` fits it is `v` itself. -/
abbrev Sys2Proof.Claims.WrapsTo (v w : Int) : Prop :=
  (∃ k : Int, v = w + k * 4294967296) ∧ (Sys2Proof.Claims.Fits v → w = v)

/-- A quotient and remainder of truncating division: `a = b * q + r`, `|r| < |b|`, `r` zero or of the sign of `a` (R152). -/
abbrev Sys2Proof.Claims.TruncDiv (a b q r : Int) : Prop :=
  a = b * q + r ∧ |r| < |b| ∧ (0 < r → 0 < a) ∧ (r < 0 → a < 0)

/-- `exec` of an ADD-shaped instruction with operation `op` completes wherever the result fits or `ARITH_OVERFLOW` is WRAP. -/
def Sys2Proof.Claims.ArithCompletes (mk : Byte → Byte → Byte → Instr) (op : Int → Int → Int) : Prop :=
  ∀ (s : State) (rs1 rs2 rd : Byte) (a b d : Fin 32),
    rs1.toNat = a.val → rs2.toNat = b.val → rd.toNat = d.val →
    (Sys2Proof.Claims.Fits (op (s.sreg a) (s.sreg b)) ∨ s.cfg.arithOverflow = .wrap) →
    ∃ t, exec (mk rs1 rs2 rd) s = .next t ∧
      Sys2Proof.Claims.WrapsTo (op (s.sreg a) (s.sreg b)) (t.sreg d) ∧
      s.SameRegsBut t d ∧ t.rem = s.rem ∧ t.eq = s.eq ∧ t.pc = s.pc + 4 ∧ t.Continues ∧ s.SameProgram t

/-- An ADD-shaped instruction's rule as one Execute-one sees it: opcode byte `b0`, operation `op`. Where an operand byte is
missing, an index is above 31 or the parameter says FAULT and the result does not fit, the step is that of
`MissingOperandByteFaults`, `BadIndexFaults` and `OverflowFaultsOnlyUnderFault`. -/
def Sys2Proof.Claims.ArithRule (b0 : Byte) (mk : Byte → Byte → Byte → Instr) (op : Int → Int → Int) : Prop :=
  (∀ rs1 rs2 rd, (mk rs1 rs2 rd).encode = some [b0, rs1, rs2, rd]) ∧
  ∀ s : State, s.AtOpcode b0 →
    ∀ (b1 b2 b3 : Byte) (a b d : Fin 32), s.OperandsAre [b1, b2, b3] →
      b1.toNat = a.val → b2.toNat = b.val → b3.toNat = d.val →
      (Sys2Proof.Claims.Fits (op (s.sreg a) (s.sreg b)) ∨ s.cfg.arithOverflow = .wrap) →
      ∃ t, step s = .next t ∧
        Sys2Proof.Claims.WrapsTo (op (s.sreg a) (s.sreg b)) (t.sreg d) ∧
        s.SameRegsBut t d ∧ t.rem = s.rem ∧ t.eq = s.eq ∧
        t.pc.toNat = s.pc.toNat + 4 ∧ t.Continues ∧ s.SameProgram t

/-- `exec` of a comparison with relation `rel` completes wherever both indices name registers, and writes `eq` and the pc only. -/
def Sys2Proof.Claims.CompareCompletes (mk : Byte → Byte → Byte → Instr) (rel : Int → Int → Prop) : Prop :=
  ∀ (s : State) (rs1 rs2 pad : Byte) (a b : Fin 32), rs1.toNat = a.val → rs2.toNat = b.val →
    ∃ t, exec (mk rs1 rs2 pad) s = .next t ∧
      (t.eq = true ↔ rel (s.sreg a) (s.sreg b)) ∧
      (∀ j, t.reg j = s.reg j) ∧ t.rem = s.rem ∧ t.pc = s.pc + 4 ∧ t.Continues ∧ s.SameProgram t

/-- A comparison's rule as one Execute-one sees it: the pad byte `b3` is read and plays no part. -/
def Sys2Proof.Claims.CompareRule (b0 : Byte) (mk : Byte → Byte → Byte → Instr) (rel : Int → Int → Prop) : Prop :=
  (∀ rs1 rs2 pad, (mk rs1 rs2 pad).encode = some [b0, rs1, rs2, pad]) ∧
  ∀ s : State, s.AtOpcode b0 →
    ∀ (b1 b2 b3 : Byte) (a b : Fin 32), s.OperandsAre [b1, b2, b3] → b1.toNat = a.val → b2.toNat = b.val →
      ∃ t, step s = .next t ∧
        (t.eq = true ↔ rel (s.sreg a) (s.sreg b)) ∧
        (∀ j, t.reg j = s.reg j) ∧ t.rem = s.rem ∧
        t.pc.toNat = s.pc.toNat + 4 ∧ t.Continues ∧ s.SameProgram t

/-- A jump completes to the exact address `target`, changing nothing but the pc and the status. -/
abbrev Sys2Proof.Claims.JumpsTo (o : Host.Outcome State Fault Refusal) (s : State) (target : Int) : Prop :=
  ∃ t, o = .next t ∧ (t.pc.toNat : Int) = target ∧ s.SameData t ∧ t.Continues ∧ s.SameProgram t

/-- The whole of an unconditional jump's rule as one Execute-one sees it: the register value must be non-negative and the exact
target a value of the pc. -/
def Sys2Proof.Claims.JumpRule (b0 : Byte) (mk : Byte → Instr) (target : State → Int → Int) : Prop :=
  (∀ ra, (mk ra).encode = some [b0, ra]) ∧
  ∀ s : State, s.AtOpcode b0 →
    (s.len < s.pc.toNat + 2 → TakesFault (step s) s .truncated) ∧
    ∀ b1 : Byte, s.OperandsAre [b1] →
      (31 < b1.toNat → TakesFault (step s) s .regIndex) ∧
      ∀ r : Fin 32, b1.toNat = r.val →
        if 0 ≤ s.sreg r ∧ 0 ≤ target s (s.sreg r) ∧ target s (s.sreg r) ≤ 4294967295 then
          Sys2Proof.Claims.JumpsTo (step s) s (target s (s.sreg r))
        else TakesFault (step s) s .badJump

/-- One Execute-one at the one-byte instruction `b0` ends with `pc0 + 1`, every register, `rem`, `eq` and the buffer as they
were, and the status `P`. -/
def Sys2Proof.Claims.OneByteRule (b0 : Byte) (P : State → Prop) : Prop :=
  ∀ s : State, s.AtOpcode b0 →
    ∃ t, step s = .next t ∧ s.SameData t ∧ s.SameProgram t ∧ t.pc.toNat = s.pc.toNat + 1 ∧ P t

/-- `rd` is the destination byte of `i`: the `reg-w` byte of a LOAD, ADD, SUB, MUL or DIV, and no other instruction has one (R22,
R86). -/
abbrev Sys2Proof.Claims.HasDestination (i : Instr) (rd : Byte) : Prop :=
  (∃ imm, i = .load rd imm) ∨
    ∃ rs1 rs2, i = .add rs1 rs2 rd ∨ i = .sub rs1 rs2 rd ∨ i = .mul rs1 rs2 rd ∨ i = .div rs1 rs2 rd

/-! ### Encoding -/

/-- A few words written out from the format table R71 to R76 and the opcode map R81 decode to the instruction they stand for. -/
def Obligations.SpecWordsDecode : Prop :=
  decode [0b00001010, 31, 1, 244] = .instr (.load 31 500) [] ∧
  decode [0b00001011, 0, 1, 2] = .instr (.add 0 1 2) [] ∧
  decode [0b00001110, 2, 1, 3, 77] = .instr (.div 2 1 3) [77] ∧
  decode [0b00010001, 5] = .instr (.jumpBackward 5) [] ∧
  decode [0b00010100, 0, 1, 200] = .instr (.lessThan 0 1 200) [] ∧
  decode [0b11111110] = .instr .print [] ∧ decode [0b11111111] = .instr .nop [] ∧
  decode [100, 32, 0, 0] = .instr (.illegal 100) [32, 0, 0]

/-- R85: the opcode decoder is total, gives each row of R81 its operation, and ILLEGAL to every other byte, 254 included. -/
def Obligations.OpcodeMapOfTheTable : Prop :=
  (decodeOpcode 0 = .halt ∧ decodeOpcode 10 = .load ∧ decodeOpcode 11 = .add ∧ decodeOpcode 12 = .sub ∧
    decodeOpcode 13 = .mul ∧ decodeOpcode 14 = .div ∧ decodeOpcode 15 = .jumpAbsolute ∧ decodeOpcode 16 = .jumpForward ∧
    decodeOpcode 17 = .jumpBackward ∧ decodeOpcode 18 = .equal ∧ decodeOpcode 19 = .notEqual ∧
    decodeOpcode 20 = .lessThan ∧ decodeOpcode 21 = .greaterThan ∧ decodeOpcode 22 = .lessOrEqual ∧
    decodeOpcode 23 = .greaterOrEqual ∧ decodeOpcode 24 = .jumpIfEqual ∧ decodeOpcode 255 = .nop) ∧
  decodeOpcode 254 = .igl ∧
  ∀ b : Byte, decodeOpcode b = .igl ↔ ¬ (b.toNat = 0 ∨ (10 ≤ b.toNat ∧ b.toNat ≤ 24) ∨ b.toNat = 255)

/-- R88: `encode` is defined on the 17 operations and `decode` undoes it there; ILLEGAL has no byte, and no operation has a byte
that decodes to ILLEGAL (254 among them). -/
def Obligations.OpcodeEncodeIsRightInverse : Prop :=
  (∀ op : Opcode, op ≠ .igl → ∃ b, encodeOpcode op = some b ∧ decodeOpcode b = op) ∧
  encodeOpcode .igl = none ∧ ∀ op : Opcode, encodeOpcode op ≠ some 254

/-- Every instruction of the 17 operations has an encoding, and decoding its bytes, whatever follows them, gives it back with
every operand at every value and leaves exactly what follows (R71 to R76, R88). -/
def Obligations.InstrDecodeOfEncode : Prop :=
  ∀ i : Instr, i.opcode ≠ .igl → ∃ bs, i.encode = some bs ∧ ∀ rest, decode (bs ++ rest) = .instr i rest

/-- The other direction: whatever decodes to one of the 17 operations is that instruction's encoding followed by the rest, so no
bit of the bytes is lost (R71 to R76, R81). -/
def Obligations.InstrEncodeOfDecode : Prop :=
  ∀ (bs rest : List Byte) (i : Instr), decode bs = .instr i rest → i.opcode ≠ .igl →
    ∃ e, i.encode = some e ∧ bs = e ++ rest

/-- R70: the first byte alone decides the length, which is 1, 2 or 4 as the table of R81 gives it, and decoding consumes exactly
that many bytes. -/
def Obligations.DecodeConsumesTheLength : Prop :=
  ∀ (b0 : Byte) (bs rest : List Byte) (i : Instr), decode (b0 :: bs) = .instr i rest →
    i.opcode = decodeOpcode b0 ∧ (b0 :: bs).length = i.length + rest.length ∧
    i.length =
      if (10 ≤ b0.toNat ∧ b0.toNat ≤ 14) ∨ (18 ≤ b0.toNat ∧ b0.toNat ≤ 23) then 4
      else if (15 ≤ b0.toNat ∧ b0.toNat ≤ 17) ∨ b0.toNat = 24 then 2 else 1

/-- Decoding stops short exactly when fewer bytes follow the opcode byte than its layout asks for, and then names the opcode
(R86, R104). -/
def Obligations.DecodeTruncatedExactly : Prop :=
  ∀ (b0 : Byte) (bs : List Byte) (op : Opcode),
    decode (b0 :: bs) = .truncated op ↔ op = decodeOpcode b0 ∧ bs.length < operandCount op

/-! ### The stages every Execute-one passes through -/

/-- R101 (decision D10): a faulted engine changes nothing and returns Stop. -/
def Obligations.FaultedEngineChangesNothing : Prop :=
  ∀ s : State, s.faulted = true → step s = .next s ∧ s.signal = .stop

/-- R102: at or beyond the end of the buffer nothing changes but the status, END is no fault, and it is not sticky: once the host
has appended the byte at the pc, the next Execute-one fetches there. -/
def Obligations.EndOfBufferStops : Prop :=
  ∀ s : State, s.faulted = false → s.len ≤ s.pc.toNat →
    ∃ t, step s = .next t ∧ s.SameData t ∧ s.SameProgram t ∧ t.pc = s.pc ∧ t.StopsWith .atEnd ∧ t.faulted = false ∧
      ∀ (b : Byte) (u : State), s.len = s.pc.toNat → command (.appendByte b) t = .next u →
        u.fetch ≠ .atEnd ∧ u.fetch ≠ .faulted

/-- When the bytes from the pc on decode to an instruction, the step is that instruction's `exec` in the same state (R103 to
R106, R109): nothing is done around it. -/
def Obligations.StepRunsDecodedInstruction : Prop :=
  ∀ (s : State) (i : Instr) (rest : List Byte), s.prog.wf = true → s.faulted = false →
    decode (s.prog.bytes.drop s.pc.toNat) = .instr i rest → step s = exec i s

/-- When operand bytes are missing the step raises F_TRUNCATED, whatever the bytes that are there (R104, R221, R226). -/
def Obligations.MissingOperandByteFaults : Prop :=
  ∀ (s : State) (b0 : Byte), s.AtOpcode b0 → s.len < s.pc.toNat + 1 + operandCount (decodeOpcode b0) →
    TakesFault (step s) s .truncated

/-- Every register-index byte of every instruction is checked, whether or not the register would be used: one above 31 raises
F_REG_INDEX before any effect (R105, R222; decisions D9, D13). A byte 0..31 names that register and no other byte names any
(R23, R78). -/
def Obligations.BadIndexFaults : Prop :=
  (∀ b : Byte, ∀ i : Fin 32, regIndex b = some i ↔ b.toNat = i.val) ∧
  ∀ (i : Instr) (s : State), (∃ b ∈ i.indexBytes, 31 < b.toNat) → TakesFault (exec i s) s .regIndex

/-- R107: an instruction that completes and is no jump, or is a JUMP-IF-EQUAL not taken, leaves the pc at `pc0` plus its length,
exactly; a jump that is taken leaves the pc its own rule writes. -/
def Obligations.NextPc : Prop :=
  ∀ (s t : State) (i : Instr), s.Inv → s.fetch = .instr i → step s = .next t → t.faulted = false →
    ((i.opcode ≠ .jumpAbsolute ∧ i.opcode ≠ .jumpForward ∧ i.opcode ≠ .jumpBackward ∧
      (i.opcode = .jumpIfEqual → s.eq = false)) → t.pc.toNat = s.pc.toNat + i.length) ∧
    ∀ (ra : Byte) (r : Fin 32), ra.toNat = r.val →
      (i = .jumpAbsolute ra ∨ (i = .jumpIfEqual ra ∧ s.eq = true) → (t.pc.toNat : Int) = s.sreg r) ∧
      (i = .jumpForward ra → (t.pc.toNat : Int) = (s.pc.toNat : Int) + 2 + s.sreg r) ∧
      (i = .jumpBackward ra → (t.pc.toNat : Int) = (s.pc.toNat : Int) + 2 - s.sreg r)

/-- R108: of an instruction that does not fault, HALT ends with Stop and cause HALT, ILLEGAL (any unrecognised byte, 254
included) with Stop and cause ILLEGAL, and every other with Continue. -/
def Obligations.SignalOfCompletion : Prop :=
  ∀ (s t : State) (i : Instr), s.fetch = .instr i → step s = .next t → t.faulted = false →
    if i.opcode = .halt then t.StopsWith .halt
    else if i.opcode = .igl then t.StopsWith .illegal
    else t.Continues

/-! ### LOAD -/

/-- LOAD completes for every immediate: the destination holds its value, zero-extended over the whole register; every other
register, `rem`, `eq` and the buffer stay (R130, R80, R157). -/
def Obligations.LoadCompletes : Prop :=
  ∀ (s : State) (rd : Byte) (imm : Imm16) (d : Fin 32), rd.toNat = d.val →
    ∃ t, exec (.load rd imm) s = .next t ∧
      t.sreg d = (imm.toNat : Int) ∧ s.SameRegsBut t d ∧ t.rem = s.rem ∧ t.eq = s.eq ∧ t.pc = s.pc + 4 ∧
      t.Continues ∧ s.SameProgram t

/-- R130, the rule as one Execute-one sees it. -/
def Obligations.LoadRule : Prop :=
  (∀ (rd hi lo : Byte), (Instr.load rd (immOfBytes hi lo)).encode = some [10, rd, hi, lo]) ∧
  ∀ s : State, s.AtOpcode 10 →
    ∀ (b1 b2 b3 : Byte) (d : Fin 32), s.OperandsAre [b1, b2, b3] → b1.toNat = d.val →
      ∃ t, step s = .next t ∧
        t.sreg d = (b2.toNat : Int) * 256 + b3.toNat ∧ s.SameRegsBut t d ∧ t.rem = s.rem ∧ t.eq = s.eq ∧
        t.pc.toNat = s.pc.toNat + 4 ∧ t.Continues ∧ s.SameProgram t

/-! ### Arithmetic -/

/-- ADD, SUB (first minus second) and MUL complete wherever the exact result fits or `ARITH_OVERFLOW` is WRAP, with the result
modulo 2^32 in the destination and everything else as it was (R140 to R142, R150, R156 to R158; decision D4; SUB's order is the
spec's reading, log 14). -/
def Obligations.AddSubMulComplete : Prop :=
  Sys2Proof.Claims.ArithCompletes .add (fun a b => a + b) ∧
  Sys2Proof.Claims.ArithCompletes .sub (fun a b => a - b) ∧
  Sys2Proof.Claims.ArithCompletes .mul (fun a b => a * b)

/-- R140, the rule of ADD. -/
def Obligations.AddRule : Prop := Sys2Proof.Claims.ArithRule 11 .add (fun a b => a + b)

/-- The rule of SUB: the first source minus the second. That order is the spec's own reading of its source (R141; N12 of
spec/91_not_in_source.md; log 14). -/
def Obligations.SubRule : Prop := Sys2Proof.Claims.ArithRule 12 .sub (fun a b => a - b)

/-- R142, the rule of MUL. -/
def Obligations.MulRule : Prop := Sys2Proof.Claims.ArithRule 13 .mul (fun a b => a * b)

/-- DIV with a non-zero divisor completes wherever the quotient fits or `ARITH_OVERFLOW` is WRAP: the truncated quotient to the
destination, the pattern of the remainder to `rem`, everything else as it was (R143, R152, R153; the rounding and the pattern are
the spec's decisions D5, D6, log 8). -/
def Obligations.DivCompletes : Prop :=
  ∀ (s : State) (rs1 rs2 rd : Byte) (a b d : Fin 32) (q r : Int),
    rs1.toNat = a.val → rs2.toNat = b.val → rd.toNat = d.val → s.sreg b ≠ 0 →
    Sys2Proof.Claims.TruncDiv (s.sreg a) (s.sreg b) q r →
    (Sys2Proof.Claims.Fits q ∨ s.cfg.arithOverflow = .wrap) →
    ∃ t, exec (.div rs1 rs2 rd) s = .next t ∧
      Sys2Proof.Claims.WrapsTo q (t.sreg d) ∧ t.rem.toInt = r ∧
      s.SameRegsBut t d ∧ t.eq = s.eq ∧ t.pc = s.pc + 4 ∧ t.Continues ∧ s.SameProgram t

/-- R154: DIV by a zero-valued register never produces a value, for every dividend. -/
def Obligations.DivByZeroFaults : Prop :=
  ∀ (s : State) (rs1 rs2 rd : Byte) (a b d : Fin 32),
    rs1.toNat = a.val → rs2.toNat = b.val → rd.toNat = d.val → s.sreg b = 0 →
    ∃ t, exec (.div rs1 rs2 rd) s = .next t ∧ (∀ j, t.reg j = s.reg j) ∧ t.rem = s.rem ∧ t.eq = s.eq ∧
      t.pc = s.pc + 1 ∧ t.StopsWith .divZero ∧ s.SameProgram t

/-- The one quotient that does not fit, -2^31 / -1, under both settings of `ARITH_OVERFLOW` (R155; decision D4). -/
def Obligations.DivMinByMinusOne : Prop :=
  ∀ (s : State) (rs1 rs2 rd : Byte) (a b d : Fin 32),
    rs1.toNat = a.val → rs2.toNat = b.val → rd.toNat = d.val → s.sreg a = -2147483648 → s.sreg b = -1 →
    (s.cfg.arithOverflow = .wrap →
      ∃ t, exec (.div rs1 rs2 rd) s = .next t ∧ t.sreg d = -2147483648 ∧ t.rem = 0) ∧
    (s.cfg.arithOverflow = .fault → TakesFault (exec (.div rs1 rs2 rd) s) s .overflow)

/-- With `ARITH_OVERFLOW` = FAULT an exact result of ADD, SUB or MUL that does not fit raises F_OVERFLOW and writes nothing; with
WRAP no step raises it (R156, R225; decision D4; SUB's order is the spec's reading, log 14). -/
def Obligations.OverflowFaultsOnlyUnderFault : Prop :=
  (∀ (s : State) (rs1 rs2 rd : Byte) (a b d : Fin 32),
    rs1.toNat = a.val → rs2.toNat = b.val → rd.toNat = d.val → s.cfg.arithOverflow = .fault →
    (¬ Sys2Proof.Claims.Fits (s.sreg a + s.sreg b) → TakesFault (exec (.add rs1 rs2 rd) s) s .overflow) ∧
    (¬ Sys2Proof.Claims.Fits (s.sreg a - s.sreg b) → TakesFault (exec (.sub rs1 rs2 rd) s) s .overflow) ∧
    (¬ Sys2Proof.Claims.Fits (s.sreg a * s.sreg b) → TakesFault (exec (.mul rs1 rs2 rd) s) s .overflow)) ∧
  ∀ s t : State, s.cfg.arithOverflow = .wrap → s.faulted = false → step s = .next t → t.stopCause ≠ .overflow

/-- R157: both sources are read before the destination and `rem` are written: what is written is the same whichever register is
the destination, a source included, and R157's two examples. -/
def Obligations.SourcesReadBeforeWrite : Prop :=
  (∀ (s t : State) (rs1 rs2 rd rd' : Byte) (d d' : Fin 32) (mk : Byte → Byte → Byte → Instr),
    mk = .add ∨ mk = .sub ∨ mk = .mul ∨ mk = .div → rd.toNat = d.val → rd'.toNat = d'.val →
    exec (mk rs1 rs2 rd) s = .next t → t.faulted = false →
    ∃ t', exec (mk rs1 rs2 rd') s = .next t' ∧ t'.reg d' = t.reg d ∧ t'.rem = t.rem) ∧
  (∀ s : State, s.sreg 0 = 3 → ∃ t, exec (.add 0 0 0) s = .next t ∧ t.sreg 0 = 6) ∧
  ∀ s : State, s.sreg 1 = 10 → s.sreg 2 = 4 →
    ∃ t, exec (.div 1 2 2) s = .next t ∧ t.sreg 2 = 2 ∧ t.rem = 2

/-- R158: no arithmetic instruction writes `eq` or reads it (setting `eq` before or after is the same), and none but DIV writes
`rem`. -/
def Obligations.ArithmeticLeavesTheFlag : Prop :=
  ∀ (i : Instr) (s t : State), i.opcode ∈ [Opcode.add, .sub, .mul, .div] → exec i s = .next t →
    t.eq = s.eq ∧ (∀ b : Bool, exec i (s.setEq b) = .next (t.setEq b)) ∧ (i.opcode ≠ .div → t.rem = s.rem)

/-! ### Jumps -/

/-- JUMP-ABSOLUTE, JUMP-FORWARD and JUMP-BACKWARD complete exactly to the target their rule gives, from a non-negative register
value, wherever the target is a value of the pc; a target at or beyond `len` is legal (R160 to R162, R170, R171, R175). -/
def Obligations.UnconditionalJumpsComplete : Prop :=
  ∀ (s : State) (ra : Byte) (r : Fin 32), ra.toNat = r.val → 0 ≤ s.sreg r →
    Sys2Proof.Claims.JumpsTo (exec (.jumpAbsolute ra) s) s (s.sreg r) ∧
    ((s.pc.toNat : Int) + 2 + s.sreg r ≤ 4294967295 →
      Sys2Proof.Claims.JumpsTo (exec (.jumpForward ra) s) s ((s.pc.toNat : Int) + 2 + s.sreg r)) ∧
    (s.sreg r ≤ (s.pc.toNat : Int) + 2 → (s.pc.toNat : Int) + 2 - s.sreg r ≤ 4294967295 →
      Sys2Proof.Claims.JumpsTo (exec (.jumpBackward ra) s) s ((s.pc.toNat : Int) + 2 - s.sreg r))

/-- A jump target that is no value of the pc raises F_BAD_JUMP and is never wrapped, clamped or truncated (R170, R224; decision
D7). -/
def Obligations.BadJumpTargetsFault : Prop :=
  ∀ (s : State) (ra : Byte) (r : Fin 32), ra.toNat = r.val →
    (s.sreg r < 0 →
      TakesFault (exec (.jumpAbsolute ra) s) s .badJump ∧ TakesFault (exec (.jumpForward ra) s) s .badJump ∧
      TakesFault (exec (.jumpBackward ra) s) s .badJump ∧
      (s.eq = true → TakesFault (exec (.jumpIfEqual ra) s) s .badJump)) ∧
    (4294967295 < (s.pc.toNat : Int) + 2 + s.sreg r → TakesFault (exec (.jumpForward ra) s) s .badJump) ∧
    ((s.pc.toNat : Int) + 2 < s.sreg r → TakesFault (exec (.jumpBackward ra) s) s .badJump)

/-- JUMP-IF-EQUAL completes: taken to the register's value when `eq` is true and the value non-negative; not taken, to `pc0 + 2`,
when `eq` is false, whatever the register holds. It writes nothing but the pc and the status (R163, R31). -/
def Obligations.JumpIfEqualCompletes : Prop :=
  ∀ (s : State) (ra : Byte) (r : Fin 32), ra.toNat = r.val →
    (s.eq = true → 0 ≤ s.sreg r → Sys2Proof.Claims.JumpsTo (exec (.jumpIfEqual ra) s) s (s.sreg r)) ∧
    (s.eq = false →
      ∃ t, exec (.jumpIfEqual ra) s = .next t ∧ t.pc = s.pc + 2 ∧ s.SameData t ∧ t.Continues ∧ s.SameProgram t)

/-- R160, R170: JUMP-ABSOLUTE, from stage 0 to 7, its faults included (decisions D7, D8, D9). -/
def Obligations.JumpAbsoluteRule : Prop := Sys2Proof.Claims.JumpRule 15 .jumpAbsolute (fun _ v => v)

/-- R161, the rule of JUMP-FORWARD: relative to the address after the jump. -/
def Obligations.JumpForwardRule : Prop :=
  (∀ ra : Byte, (Instr.jumpForward ra).encode = some [16, ra]) ∧
  ∀ s : State, s.AtOpcode 16 →
    ∀ (b1 : Byte) (r : Fin 32), s.OperandsAre [b1] → b1.toNat = r.val →
      0 ≤ s.sreg r → (s.pc.toNat : Int) + 2 + s.sreg r ≤ 4294967295 →
      Sys2Proof.Claims.JumpsTo (step s) s ((s.pc.toNat : Int) + 2 + s.sreg r)

/-- R162, R170: JUMP-BACKWARD, from stage 0 to 7, its faults included (decisions D7, D8, D9): relative to the address after the
jump. (The operand byte is there, so `pc0 + 2 ≤ len`, and the target's upper bound never binds.) -/
def Obligations.JumpBackwardRule : Prop :=
  Sys2Proof.Claims.JumpRule 17 .jumpBackward (fun s v => (s.pc.toNat : Int) + 2 - v)

/-- R163, the rule of JUMP-IF-EQUAL: it tests the flag alone and does not change it. -/
def Obligations.JumpIfEqualRule : Prop :=
  (∀ ra : Byte, (Instr.jumpIfEqual ra).encode = some [24, ra]) ∧
  ∀ s : State, s.AtOpcode 24 →
    ∀ (b1 : Byte) (r : Fin 32), s.OperandsAre [b1] → b1.toNat = r.val →
      (s.eq = true → 0 ≤ s.sreg r → Sys2Proof.Claims.JumpsTo (step s) s (s.sreg r)) ∧
      (s.eq = false → Sys2Proof.Claims.JumpsTo (step s) s ((s.pc.toNat : Int) + 2))

/-! ### Comparisons -/

/-- The six comparisons complete wherever both indices name registers, whatever the pad byte: `eq` is the truth value of the
relation on the signed values, and nothing else but the pc and the status changes (R79, R180 to R185, R190, R191). -/
def Obligations.ComparisonsComplete : Prop :=
  Sys2Proof.Claims.CompareCompletes .equal (fun a b => a = b) ∧
  Sys2Proof.Claims.CompareCompletes .notEqual (fun a b => a ≠ b) ∧
  Sys2Proof.Claims.CompareCompletes .lessThan (fun a b => a < b) ∧
  Sys2Proof.Claims.CompareCompletes .greaterThan (fun a b => a > b) ∧
  Sys2Proof.Claims.CompareCompletes .lessOrEqual (fun a b => a ≤ b) ∧
  Sys2Proof.Claims.CompareCompletes .greaterOrEqual (fun a b => a ≥ b)

/-- R180 to R185, the rules of the six comparisons. -/
def Obligations.ComparisonRules : Prop :=
  Sys2Proof.Claims.CompareRule 18 .equal (fun a b => a = b) ∧
  Sys2Proof.Claims.CompareRule 19 .notEqual (fun a b => a ≠ b) ∧
  Sys2Proof.Claims.CompareRule 20 .lessThan (fun a b => a < b) ∧
  Sys2Proof.Claims.CompareRule 21 .greaterThan (fun a b => a > b) ∧
  Sys2Proof.Claims.CompareRule 22 .lessOrEqual (fun a b => a ≤ b) ∧
  Sys2Proof.Claims.CompareRule 23 .greaterOrEqual (fun a b => a ≥ b)

/-- R190: the relations are on signed values; of LESS-THAN, EQUAL and GREATER-THAN exactly one leaves `eq` true, LESS-OR-EQUAL is
LESS-THAN or EQUAL, GREATER-OR-EQUAL is GREATER-THAN or EQUAL, NOT-EQUAL is not EQUAL. -/
def Obligations.ComparisonsAreTrichotomous : Prop :=
  ∀ (s : State) (rs1 rs2 pad : Byte) (a b : Fin 32), rs1.toNat = a.val → rs2.toNat = b.val →
    ∃ tl te tg tle tge tne : State,
      exec (.lessThan rs1 rs2 pad) s = .next tl ∧ exec (.equal rs1 rs2 pad) s = .next te ∧
      exec (.greaterThan rs1 rs2 pad) s = .next tg ∧ exec (.lessOrEqual rs1 rs2 pad) s = .next tle ∧
      exec (.greaterOrEqual rs1 rs2 pad) s = .next tge ∧ exec (.notEqual rs1 rs2 pad) s = .next tne ∧
      (tl.eq = true ↔ s.sreg a < s.sreg b) ∧
      ((tl.eq = true ∧ te.eq = false ∧ tg.eq = false) ∨ (tl.eq = false ∧ te.eq = true ∧ tg.eq = false) ∨
        (tl.eq = false ∧ te.eq = false ∧ tg.eq = true)) ∧
      tle.eq = (tl.eq || te.eq) ∧ tge.eq = (tg.eq || te.eq) ∧ tne.eq = !te.eq

/-- R191: a comparison writes `eq` whatever it was before, and writes nothing else (but the pc's advance and the status); which
relation was tested is not recorded, so JUMP-IF-EQUAL after LESS-THAN jumps when the less-than held. -/
def Obligations.ComparisonOverwritesFlag : Prop :=
  (∀ (i : Instr) (s t : State) (b : Bool),
    i.opcode ∈ [Opcode.equal, .notEqual, .lessThan, .greaterThan, .lessOrEqual, .greaterOrEqual] →
    exec i s = .next t → t.faulted = false →
    exec i (s.setEq b) = .next t ∧ (∀ j, t.reg j = s.reg j) ∧ t.rem = s.rem ∧ s.SameProgram t) ∧
  ∀ (s t : State) (rs1 rs2 pad ra : Byte) (a b r : Fin 32),
    rs1.toNat = a.val → rs2.toNat = b.val → ra.toNat = r.val → 0 ≤ s.sreg r →
    exec (.lessThan rs1 rs2 pad) s = .next t →
    ∃ u, exec (.jumpIfEqual ra) t = .next u ∧
      (s.sreg a < s.sreg b → (u.pc.toNat : Int) = s.sreg r) ∧ (¬ s.sreg a < s.sreg b → u.pc = t.pc + 2)

/-! ### HALT, NOP, ILLEGAL, PRINT -/

/-- HALT, NOP, PRINT and ILLEGAL complete in every state: one byte consumed, no register, `rem`, `eq` or buffer byte changed; the
stops are no faults (R200 to R203). -/
def Obligations.SystemInstructionsComplete : Prop :=
  ∀ s : State,
    (∃ t, exec .halt s = .next t ∧ s.SameData t ∧ s.SameProgram t ∧ t.pc = s.pc + 1 ∧ t.StopsWith .halt ∧
      t.faulted = false) ∧
    (∃ t, exec .nop s = .next t ∧ s.SameData t ∧ s.SameProgram t ∧ t.pc = s.pc + 1 ∧ t.Continues) ∧
    (∃ t, exec .print s = .next t ∧ s.SameData t ∧ s.SameProgram t ∧ t.pc = s.pc + 1 ∧ t.StopsWith .illegal ∧
      t.faulted = false) ∧
    ∀ byte : Byte, ∃ t, exec (.illegal byte) s = .next t ∧ s.SameData t ∧ s.SameProgram t ∧ t.pc = s.pc + 1 ∧
      t.StopsWith .illegal ∧ t.faulted = false

/-- R200: one Execute-one at byte 0. -/
def Obligations.HaltRule : Prop :=
  Instr.halt.encode = some [0] ∧
  Sys2Proof.Claims.OneByteRule 0 (fun t => t.StopsWith .halt ∧ t.faulted = false)

/-- R201: one Execute-one at byte 255. -/
def Obligations.NopRule : Prop :=
  Instr.nop.encode = some [255] ∧ Sys2Proof.Claims.OneByteRule 255 (fun t => t.Continues)

/-- R202, R203: one Execute-one at any byte other than 0, 10..24 and 255, the reserved byte 254 among them; no operand byte is
read, so what follows the byte plays no part. -/
def Obligations.IllegalAndPrintRule : Prop :=
  ∀ b0 : Byte, ¬ (b0.toNat = 0 ∨ (10 ≤ b0.toNat ∧ b0.toNat ≤ 24) ∨ b0.toNat = 255) →
    Sys2Proof.Claims.OneByteRule b0 (fun t => t.StopsWith .illegal ∧ t.faulted = false)

/-! ### Statements about the whole machine -/

/-- Every instruction, with any operands, in any state, ends in a next state: none faults the model, none is refused (R210). -/
def Obligations.EveryInstructionAnswersNext : Prop :=
  ∀ (i : Instr) (s : State), ∃ t, exec i s = .next t

/-- From every state that meets the invariant a step answers a next state that meets it: the buffer stays in canonical form and
within PROG_CAPACITY, the status registers agree (R37, R40). -/
def Obligations.StepKeepsTheInvariant : Prop :=
  ∀ s : State, s.Inv → ∃ t, step s = .next t ∧ t.Inv

/-- Every host operation keeps the invariant (R40, R119 to R123). -/
def Obligations.HostOperationsKeepTheInvariant : Prop :=
  ∀ (c : Command) (s t : State), s.Inv → command c s = .next t → t.Inv

/-- The invariant holds after power-on reset, for every setting of the parameters and so for `State.reset`. -/
def Obligations.InvariantAtReset : Prop := (∀ c : Config, (State.initial c).Inv) ∧ State.reset.Inv

/-- No step changes a byte of the program buffer, its length, or the parameters (R57, R240). -/
def Obligations.ProgramIsReadOnly : Prop :=
  ∀ s t : State, step s = .next t → s.SameProgram t ∧ t.len = s.len

/-- A step that changes a general register completed a LOAD, ADD, SUB, MUL or DIV, and the register its destination byte names is
the only one that changed (R22). -/
def Obligations.OnlyDestinationsAreWritten : Prop :=
  ∀ s t : State, step s = .next t → (∃ j, t.reg j ≠ s.reg j) →
    ∃ (i : Instr) (rd : Byte) (d : Fin 32), s.fetch = .instr i ∧ Sys2Proof.Claims.HasDestination i rd ∧
      regIndex rd = some d ∧ s.SameRegsBut t d ∧ t.Continues

/-- A step that changes `eq` completed one of the six comparisons (R30, R31). -/
def Obligations.OnlyComparisonsWriteEq : Prop :=
  ∀ s t : State, step s = .next t → t.eq ≠ s.eq →
    ∃ i, s.fetch = .instr i ∧ t.Continues ∧
      i.opcode ∈ [Opcode.equal, .notEqual, .lessThan, .greaterThan, .lessOrEqual, .greaterOrEqual]

/-- R32: `rem` is written by DIV only, on every DIV that completes (with the remainder of that division), and no instruction
reads it: starting from another `rem`, every step does the same to everything else, and leaves the same `rem` if it was a DIV
that completed and the other starting `rem` if not. -/
def Obligations.RemIsWrittenByDivAndNeverRead : Prop :=
  ∀ s t : State, step s = .next t →
    (t.rem ≠ s.rem → ∃ rs1 rs2 rd, s.fetch = .instr (.div rs1 rs2 rd) ∧ t.Continues) ∧
    (∀ (rs1 rs2 rd : Byte) (a b : Fin 32), s.fetch = .instr (.div rs1 rs2 rd) → t.faulted = false →
      rs1.toNat = a.val → rs2.toNat = b.val →
      ∃ q r : Int, Sys2Proof.Claims.TruncDiv (s.sreg a) (s.sreg b) q r ∧ t.rem.toInt = r) ∧
    ∀ v : Word,
      ((∃ rs1 rs2 rd, s.fetch = .instr (.div rs1 rs2 rd)) ∧ t.faulted = false → step (s.setRem v) = .next t) ∧
      (¬ ((∃ rs1 rs2 rd, s.fetch = .instr (.div rs1 rs2 rd)) ∧ t.faulted = false) →
        step (s.setRem v) = .next (t.setRem v))

/-- Faults are precise: a step that takes an engine into a fault leaves exactly what R230 says of the state it began in
(R230, R231; decision D8). -/
def Obligations.FaultsArePrecise : Prop :=
  ∀ s t : State, s.faulted = false → step s = .next t → t.faulted = true → s.FaultedFrom t t.stopCause

/-- Which Execute-one may leave which cause (R211, R213 to R215, R221 to R225). -/
def Obligations.CausesAndWhoRaisesThem : Prop :=
  ∀ s t : State, s.faulted = false → step s = .next t →
    (t.stopCause = .halt → s.fetch = .instr .halt) ∧
    (t.stopCause = .illegal → ∃ i, s.fetch = .instr i ∧ i.opcode = .igl) ∧
    (t.stopCause = .atEnd ↔ s.len ≤ s.pc.toNat) ∧
    (t.stopCause = .truncated ↔ s.fetch = .truncated) ∧
    (t.stopCause = .regIndex ↔ ∃ i, s.fetch = .instr i ∧ ∃ b ∈ i.indexBytes, 31 < b.toNat) ∧
    (t.stopCause = .divZero → ∃ rs1 rs2 rd, s.fetch = .instr (.div rs1 rs2 rd)) ∧
    (t.stopCause = .badJump →
      ∃ i, s.fetch = .instr i ∧ i.opcode ∈ [Opcode.jumpAbsolute, .jumpForward, .jumpBackward, .jumpIfEqual]) ∧
    (t.stopCause = .overflow →
      s.cfg.arithOverflow = .fault ∧ ∃ i, s.fetch = .instr i ∧ i.opcode ∈ [Opcode.add, .sub, .mul, .div])

/-- R113: after a stop with cause HALT or ILLEGAL a further Execute-one goes on with the byte that follows the stopping byte, if
there is one; after END it stops with END again; after a fault it changes nothing. -/
def Obligations.StopsResumeAndFaultsDoNot : Prop :=
  ∀ s t : State, s.Inv → s.faulted = false → step s = .next t →
    (t.stopCause = .halt ∨ t.stopCause = .illegal →
      t.pc.toNat = s.pc.toNat + 1 ∧
      (∀ i rest, decode (s.prog.bytes.drop (s.pc.toNat + 1)) = .instr i rest → step t = exec i t)) ∧
    (t.stopCause = .atEnd → step t = .next t) ∧
    (t.faulted = true → step t = .next t)

/-! ### Reset and the host -/

/-- R251: every piece of state after Initialize, which cannot fail; a register no instruction has written reads 0. Construct is the
same operation (R120), and `State.reset` is a state that Initialize leaves. -/
def Obligations.InitializeGivesResetValues : Prop :=
  (∀ s : State, ∃ t, command .initEngine s = .next t ∧ command .construct s = .next t ∧
    (∀ i, t.sreg i = 0) ∧ t.pc = 0 ∧ t.rem = 0 ∧ t.eq = false ∧ t.len = 0 ∧ (∀ a, t.prog.get a = none) ∧
    t.runState = .running ∧ t.stopCause = .none) ∧
  ∃ s : State, command .initEngine s = .next State.reset

/-- Reset(clear): the registers and the pc are 0, the status is RUNNING and NONE (which ends a fault), the buffer is emptied on
request, and `rem` and `eq` stay (R123, R252; decision D12). -/
def Obligations.ResetKeepsRemAndEq : Prop :=
  ∀ (s : State) (clear : Bool), ∃ t, command (.reset clear) s = .next t ∧
    (∀ i, t.sreg i = 0) ∧ t.pc = 0 ∧ t.runState = .running ∧ t.stopCause = .none ∧ t.faulted = false ∧
    t.rem = s.rem ∧ t.eq = s.eq ∧ t.cfg = s.cfg ∧
    (clear = true → t.len = 0 ∧ ∀ a, t.prog.get a = none) ∧
    (clear = false → t.len = s.len ∧ ∀ a, t.prog.get a = s.prog.get a)

/-- Append-byte puts one byte at address `len` and changes nothing else; on a full buffer it is refused (R121, U9; decision
D3). -/
def Obligations.AppendByteExtendsTheBuffer : Prop :=
  ∀ (s : State) (b : Byte), s.prog.wf = true →
    (s.len < s.cfg.progCapacity.toNat →
      ∃ t, command (.appendByte b) s = .next t ∧ t.len = s.len + 1 ∧ t.prog.get s.len = some b ∧
        (∀ a, a ≠ s.len → t.prog.get a = s.prog.get a) ∧
        s.SameData t ∧ t.pc = s.pc ∧ t.runState = s.runState ∧ t.stopCause = s.stopCause ∧ t.cfg = s.cfg) ∧
    (s.cfg.progCapacity.toNat ≤ s.len → command (.appendByte b) s = .refused .bufferFull)

/-- Load-program replaces the whole buffer and changes nothing else, the pc and a fault included; a program longer than
PROG_CAPACITY is refused (R122, U14; decision D18). -/
def Obligations.LoadProgramReplacesTheBuffer : Prop :=
  ∀ (s : State) (bs : List Byte),
    (bs.length ≤ s.cfg.progCapacity.toNat →
      ∃ t, command (.loadProgram bs) s = .next t ∧ t.len = bs.length ∧ (∀ a, t.prog.get a = bs[a]?) ∧
        s.SameData t ∧ t.pc = s.pc ∧ t.runState = s.runState ∧ t.stopCause = s.stopCause ∧ t.cfg = s.cfg) ∧
    (s.cfg.progCapacity.toNat < bs.length → command (.loadProgram bs) s = .refused .programTooLong)

/-- R110: Run repeats Execute-one until one returns Stop, and does nothing else. -/
def Obligations.RunRepeatsUntilStop : Prop :=
  ∀ s t : State, RunsTo s t ↔
    ∃ u, step s = .next u ∧ ((u.signal = .stop ∧ t = u) ∨ (u.signal = .cont ∧ RunsTo u t))

/-- A run that returns has one outcome, and more fuel does not change it (R44, R110, R111). -/
def Obligations.RunIsDeterministic : Prop :=
  ∀ s t : State, (∀ t', RunsTo s t → RunsTo s t' → t' = t) ∧
    ∀ k k', run k s = .returned t → k ≤ k' → run k' s = .returned t
end

