-- ==== Sys2Proof/Laws/Decode.lean ====
section
/-! SUPPORT. What the decoder's shared forms can do, and the bytes of the immediate. -/

namespace Sys2Proof

/-- Everything the one-operand form can do. -/
theorem take1_cases (op : Opcode) (mk : Byte → Instr) (bs : List Byte) :
    (∃ b1 rest, bs = b1 :: rest ∧ take1 op mk bs = .instr (mk b1) rest) ∨
      (bs.length < 1 ∧ take1 op mk bs = .truncated op) := by
  cases bs with
  | nil => exact .inr ⟨by simp, rfl⟩
  | cons b1 rest => exact .inl ⟨b1, rest, rfl, rfl⟩

/-- Everything the three-operand form can do. -/
theorem take3_cases (op : Opcode) (mk : Byte → Byte → Byte → Instr) (bs : List Byte) :
    (∃ b1 b2 b3 rest, bs = b1 :: b2 :: b3 :: rest ∧ take3 op mk bs = .instr (mk b1 b2 b3) rest) ∨
      (bs.length < 3 ∧ take3 op mk bs = .truncated op) := by
  match bs with
  | [] => exact .inr ⟨by simp, rfl⟩
  | [_] => exact .inr ⟨by simp, rfl⟩
  | [_, _] => exact .inr ⟨by simp, rfl⟩
  | b1 :: b2 :: b3 :: rest => exact .inl ⟨b1, b2, b3, rest, rfl, rfl⟩

/-- The immediate of two bytes is `B2 * 256 + B3` (R80). -/
theorem toNat_immOfBytes (hi lo : Byte) : (immOfBytes hi lo).toNat = hi.toNat * 256 + lo.toNat := by
  simp only [immOfBytes, BitVec.toNat_append]
  rw [← Nat.shiftLeft_add_eq_or_of_lt lo.isLt, Nat.shiftLeft_eq]

@[simp] theorem immHi_immOfBytes (hi lo : Byte) : immHi (immOfBytes hi lo) = hi := by
  apply BitVec.eq_of_toNat_eq
  simp only [immHi, BitVec.extractLsb'_toNat, toNat_immOfBytes, Nat.shiftRight_eq_div_pow]
  have := hi.isLt
  have := lo.isLt
  omega

@[simp] theorem immLo_immOfBytes (hi lo : Byte) : immLo (immOfBytes hi lo) = lo := by
  apply BitVec.eq_of_toNat_eq
  simp only [immLo, BitVec.extractLsb'_toNat, toNat_immOfBytes, Nat.shiftRight_eq_div_pow]
  have := lo.isLt
  omega

@[simp] theorem immOfBytes_immHi_immLo (imm : Imm16) : immOfBytes (immHi imm) (immLo imm) = imm := by
  apply BitVec.eq_of_toNat_eq
  simp only [toNat_immOfBytes, immHi, immLo, BitVec.extractLsb'_toNat, Nat.shiftRight_eq_div_pow]
  have := imm.isLt
  omega

/-- The opcode decoder inverts the opcode encoder wherever the latter is defined (R88). -/
theorem decodeOpcode_of_encodeOpcode {op : Opcode} {b : Byte} (h : encodeOpcode op = some b) :
    decodeOpcode b = op := by
  cases op <;> simp only [encodeOpcode, Option.some.injEq, reduceCtorEq] at h <;> subst h <;> rfl

/-- A byte that decodes to an operation is that operation's byte (R81). -/
theorem encodeOpcode_decodeOpcode : ∀ b : Byte, decodeOpcode b ≠ .igl → encodeOpcode (decodeOpcode b) = some b := by
  decide

/-- An unrecognised byte decodes to an instruction with the decoder value ILLEGAL (R82, R83). -/
@[simp] theorem opcode_illegalInstr (b : Byte) : (illegalInstr b).opcode = .igl := by
  unfold illegalInstr
  split <;> rfl

/-- An unrecognised byte has no operand bytes (R82). -/
@[simp] theorem operandBytes_illegalInstr (b : Byte) : (illegalInstr b).operandBytes = [] := by
  unfold illegalInstr
  split <;> rfl

/-- Everything the operand stage of the decoder can do: by the number of operand bytes of the opcode (0, 1 or 3), an instruction
with that opcode and those operand bytes, or the opcode's name when a byte is missing (R86, R104). -/
theorem decodeOperands_cases (op : Opcode) (b0 : Byte) (bs : List Byte) :
    (∃ i rest, decodeOperands op b0 bs = .instr i rest ∧ i.opcode = op ∧ bs = i.operandBytes ++ rest ∧
        i.operandBytes.length = operandCount op) ∨
      (bs.length < operandCount op ∧ decodeOperands op b0 bs = .truncated op) := by
  cases op
  case halt => exact .inl ⟨_, _, rfl, rfl, rfl, rfl⟩
  case nop => exact .inl ⟨_, _, rfl, rfl, rfl, rfl⟩
  case igl => exact .inl ⟨_, _, rfl, by simp, by simp, by simp [operandCount, operandRoles]⟩
  case jumpAbsolute | jumpForward | jumpBackward | jumpIfEqual =>
    rcases take1_cases _ _ bs with ⟨b1, rest, rfl, h⟩ | ⟨hl, h⟩
    · exact .inl ⟨_, _, h, rfl, rfl, rfl⟩
    · exact .inr ⟨hl, h⟩
  case load =>
    rcases take3_cases .load (fun b1 b2 b3 => .load b1 (immOfBytes b2 b3)) bs with
      ⟨b1, b2, b3, rest, rfl, h⟩ | ⟨hl, h⟩
    · exact .inl ⟨_, _, h, rfl, by simp [Instr.operandBytes], rfl⟩
    · exact .inr ⟨hl, h⟩
  all_goals
    rcases take3_cases _ _ bs with ⟨b1, b2, b3, rest, rfl, h⟩ | ⟨hl, h⟩
    · exact .inl ⟨_, _, h, rfl, rfl, rfl⟩
    · exact .inr ⟨hl, h⟩

end Sys2Proof
end

