-- ==== Sys2Proof/Laws/Memory.lean ====
section
/-! SUPPORT. The program buffer: every operation that writes it keeps the canonical form, and in that form the cells are the
bytes at addresses 0 .. len - 1 and nothing else (spec/10_state.md R40, spec/20_memory.md R55, R56). -/

namespace Sys2Proof.Machine

/-! ### The canonical form is kept -/

theorem Memory.wfFrom_ofBytesFrom (bs : List Byte) (k : Nat) :
    Memory.wfFrom k (Memory.ofBytesFrom k bs) = true := by
  induction bs generalizing k with
  | nil => rfl
  | cons b bs ih => simp [Memory.ofBytesFrom, Memory.wfFrom, ih]

/-- Load-program leaves the canonical form (R122). -/
theorem Memory.wf_ofBytes (bs : List Byte) : (Memory.ofBytes bs).wf = true :=
  Memory.wfFrom_ofBytesFrom bs 0

theorem Memory.wfFrom_push (m : Memory) (b : Byte) (k : Nat) (h : Memory.wfFrom k m = true) :
    Memory.wfFrom k (m ++ [(k + m.length, b)]) = true := by
  induction m generalizing k with
  | nil => simp [Memory.wfFrom]
  | cons c m ih =>
    obtain ⟨a, v⟩ := c
    simp only [Memory.wfFrom, Bool.and_eq_true, decide_eq_true_eq] at h
    simp only [List.cons_append, Memory.wfFrom, Bool.and_eq_true, decide_eq_true_eq, List.length_cons]
    refine ⟨h.1, ?_⟩
    have := ih (k + 1) h.2
    rwa [show k + (m.length + 1) = k + 1 + m.length by omega]

/-- Append-byte keeps the canonical form (R121). -/
theorem Memory.wf_push (m : Memory) (b : Byte) (h : m.wf = true) : (m.push b).wf = true := by
  have := Memory.wfFrom_push m b 0 h
  rwa [Nat.zero_add] at this

/-- Placing a fetch word leaves the canonical form. -/
theorem Memory.wf_place (m : Memory) (a : Nat) (bs : List Byte) : (m.place a bs).wf = true :=
  Memory.wf_ofBytes _

/-- The empty buffer, after Initialize and after Reset with the clear option (R45). -/
theorem Memory.wf_nil : Memory.wf [] = true := rfl

/-- Reset keeps the canonical form (R123). -/
theorem wf_hostReset (c : Bool) (s : State) (h : s.prog.wf = true) : (hostReset c s).prog.wf = true := by
  cases c <;> simp [hostReset, h, Memory.wf_nil]

/-- The buffer at reset has the canonical form. -/
theorem wf_reset : State.reset.prog.wf = true := rfl

/-! ### Lengths -/

theorem Memory.length_ofBytesFrom (bs : List Byte) (k : Nat) :
    (Memory.ofBytesFrom k bs).length = bs.length := by
  induction bs generalizing k with
  | nil => rfl
  | cons b bs ih => simp [Memory.ofBytesFrom, ih]

@[simp] theorem Memory.length_ofBytes (bs : List Byte) : (Memory.ofBytes bs).length = bs.length :=
  Memory.length_ofBytesFrom bs 0

@[simp] theorem Memory.length_push (m : Memory) (b : Byte) : (m.push b).length = m.length + 1 := by
  simp [Memory.push]

/-! ### Reading a buffer in canonical form -/

theorem Memory.get_wfFrom (m : Memory) (k a : Nat) (h : Memory.wfFrom k m = true) (hk : k ≤ a) :
    m.get a = m.bytes[a - k]? := by
  induction m generalizing k with
  | nil => simp [Memory.get, Memory.bytes]
  | cons c m ih =>
    obtain ⟨k', v⟩ := c
    simp only [Memory.wfFrom, Bool.and_eq_true, decide_eq_true_eq] at h
    obtain ⟨rfl, h⟩ := h
    by_cases e : k' = a
    · subst e
      simp [Memory.get, Memory.bytes]
    · have hlt : k' + 1 ≤ a := by omega
      rw [Memory.get, if_neg e, ih _ h hlt]
      obtain ⟨d, rfl⟩ : ∃ d, a = k' + 1 + d := ⟨a - (k' + 1), by omega⟩
      simp [Memory.bytes, show k' + 1 + d - k' = d + 1 by omega]

/-- In canonical form the byte at `a` is the a-th byte (R40). -/
theorem Memory.get_eq_bytes (m : Memory) (h : m.wf = true) (a : Nat) : m.get a = m.bytes[a]? := by
  simpa using Memory.get_wfFrom m 0 a h (Nat.zero_le a)

/-- Below `len` there is a byte. -/
theorem Memory.get_isSome (m : Memory) (h : m.wf = true) {a : Nat} (ha : a < m.length) :
    ∃ b, m.get a = some b := by
  have hb : a < m.bytes.length := by simpa [Memory.bytes] using ha
  exact ⟨m.bytes[a], by rw [Memory.get_eq_bytes m h, List.getElem?_eq_getElem hb]⟩

/-- At or beyond `len` there is none (R40, R56). -/
theorem Memory.get_none (m : Memory) (h : m.wf = true) {a : Nat} (ha : m.length ≤ a) : m.get a = none := by
  rw [Memory.get_eq_bytes m h]
  simp [Memory.bytes, ha]

/-- `MemRead` is defined when `addr + n <= len` (R11). -/
theorem Memory.read_isSome (m : Memory) (h : m.wf = true) (n a : Nat) (ha : a + n ≤ m.length) :
    ∃ bs, m.read a n = some bs ∧ bs.length = n := by
  induction n generalizing a with
  | zero => exact ⟨[], rfl, rfl⟩
  | succ n ih =>
    obtain ⟨b, hb⟩ := m.get_isSome h (a := a) (by omega)
    obtain ⟨bs, hbs, hl⟩ := ih (a + 1) (by omega)
    exact ⟨b :: bs, by simp [Memory.read, hb, hbs], by simp [hl]⟩

@[simp] theorem Memory.bytes_ofBytesFrom (bs : List Byte) (k : Nat) :
    Memory.bytes (Memory.ofBytesFrom k bs) = bs := by
  induction bs generalizing k with
  | nil => rfl
  | cons b bs ih => simpa [Memory.ofBytesFrom, Memory.bytes] using ih (k + 1)

/-- What was loaded is what is read (R122, R124). -/
@[simp] theorem Memory.bytes_ofBytes (bs : List Byte) : (Memory.ofBytes bs).bytes = bs :=
  Memory.bytes_ofBytesFrom bs 0

@[simp] theorem Memory.bytes_push (m : Memory) (b : Byte) : (m.push b).bytes = m.bytes ++ [b] := by
  simp [Memory.bytes, Memory.push]

end Sys2Proof.Machine
end

