-- ==== Sys2Proof/Laws/State.lean ====
section
/-! SUPPORT. One lemma per field of the state per update, each true by unfolding, so that no later proof unfolds a record
update; then reading a register after writing one. -/

namespace Sys2Proof.Machine

variable (s : State)

/-! ### `State.setReg` -/

@[simp] theorem State.setReg_x (i : Fin 32) (v : Word) : (s.setReg i v).x = s.x.set i.val v := rfl
@[simp] theorem State.setReg_pc (i : Fin 32) (v : Word) : (s.setReg i v).pc = s.pc := rfl
@[simp] theorem State.setReg_rem (i : Fin 32) (v : Word) : (s.setReg i v).rem = s.rem := rfl
@[simp] theorem State.setReg_eq (i : Fin 32) (v : Word) : (s.setReg i v).eq = s.eq := rfl
@[simp] theorem State.setReg_prog (i : Fin 32) (v : Word) : (s.setReg i v).prog = s.prog := rfl
@[simp] theorem State.setReg_runState (i : Fin 32) (v : Word) : (s.setReg i v).runState = s.runState := rfl
@[simp] theorem State.setReg_stopCause (i : Fin 32) (v : Word) : (s.setReg i v).stopCause = s.stopCause := rfl
@[simp] theorem State.setReg_cfg (i : Fin 32) (v : Word) : (s.setReg i v).cfg = s.cfg := rfl

/-! ### `State.setPc` -/

@[simp] theorem State.setPc_x (t : Word) : (s.setPc t).x = s.x := rfl
@[simp] theorem State.setPc_pc (t : Word) : (s.setPc t).pc = t := rfl
@[simp] theorem State.setPc_rem (t : Word) : (s.setPc t).rem = s.rem := rfl
@[simp] theorem State.setPc_eq (t : Word) : (s.setPc t).eq = s.eq := rfl
@[simp] theorem State.setPc_prog (t : Word) : (s.setPc t).prog = s.prog := rfl
@[simp] theorem State.setPc_runState (t : Word) : (s.setPc t).runState = s.runState := rfl
@[simp] theorem State.setPc_stopCause (t : Word) : (s.setPc t).stopCause = s.stopCause := rfl
@[simp] theorem State.setPc_cfg (t : Word) : (s.setPc t).cfg = s.cfg := rfl

/-! ### `State.setRem` -/

@[simp] theorem State.setRem_x (v : Word) : (s.setRem v).x = s.x := rfl
@[simp] theorem State.setRem_pc (v : Word) : (s.setRem v).pc = s.pc := rfl
@[simp] theorem State.setRem_rem (v : Word) : (s.setRem v).rem = v := rfl
@[simp] theorem State.setRem_eq (v : Word) : (s.setRem v).eq = s.eq := rfl
@[simp] theorem State.setRem_prog (v : Word) : (s.setRem v).prog = s.prog := rfl
@[simp] theorem State.setRem_runState (v : Word) : (s.setRem v).runState = s.runState := rfl
@[simp] theorem State.setRem_stopCause (v : Word) : (s.setRem v).stopCause = s.stopCause := rfl
@[simp] theorem State.setRem_cfg (v : Word) : (s.setRem v).cfg = s.cfg := rfl

/-! ### `State.setEq` -/

@[simp] theorem State.setEq_x (b : Bool) : (s.setEq b).x = s.x := rfl
@[simp] theorem State.setEq_pc (b : Bool) : (s.setEq b).pc = s.pc := rfl
@[simp] theorem State.setEq_rem (b : Bool) : (s.setEq b).rem = s.rem := rfl
@[simp] theorem State.setEq_eq (b : Bool) : (s.setEq b).eq = b := rfl
@[simp] theorem State.setEq_prog (b : Bool) : (s.setEq b).prog = s.prog := rfl
@[simp] theorem State.setEq_runState (b : Bool) : (s.setEq b).runState = s.runState := rfl
@[simp] theorem State.setEq_stopCause (b : Bool) : (s.setEq b).stopCause = s.stopCause := rfl
@[simp] theorem State.setEq_cfg (b : Bool) : (s.setEq b).cfg = s.cfg := rfl

/-! ### `State.resume` -/

@[simp] theorem State.resume_x : (s.resume).x = s.x := rfl
@[simp] theorem State.resume_pc : (s.resume).pc = s.pc := rfl
@[simp] theorem State.resume_rem : (s.resume).rem = s.rem := rfl
@[simp] theorem State.resume_eq : (s.resume).eq = s.eq := rfl
@[simp] theorem State.resume_prog : (s.resume).prog = s.prog := rfl
@[simp] theorem State.resume_runState : (s.resume).runState = .running := rfl
@[simp] theorem State.resume_stopCause : (s.resume).stopCause = .none := rfl
@[simp] theorem State.resume_cfg : (s.resume).cfg = s.cfg := rfl

/-! ### `State.stop` -/

@[simp] theorem State.stop_x (c : StopCause) : (s.stop c).x = s.x := rfl
@[simp] theorem State.stop_pc (c : StopCause) : (s.stop c).pc = s.pc := rfl
@[simp] theorem State.stop_rem (c : StopCause) : (s.stop c).rem = s.rem := rfl
@[simp] theorem State.stop_eq (c : StopCause) : (s.stop c).eq = s.eq := rfl
@[simp] theorem State.stop_prog (c : StopCause) : (s.stop c).prog = s.prog := rfl
@[simp] theorem State.stop_runState (c : StopCause) : (s.stop c).runState = .stopped := rfl
@[simp] theorem State.stop_stopCause (c : StopCause) : (s.stop c).stopCause = c := rfl
@[simp] theorem State.stop_cfg (c : StopCause) : (s.stop c).cfg = s.cfg := rfl

/-! ### `State.advance` -/

@[simp] theorem State.advance_x (n : Nat) : (s.advance n).x = s.x := rfl
@[simp] theorem State.advance_pc (n : Nat) : (s.advance n).pc = s.pc + BitVec.ofNat 32 n := rfl
@[simp] theorem State.advance_rem (n : Nat) : (s.advance n).rem = s.rem := rfl
@[simp] theorem State.advance_eq (n : Nat) : (s.advance n).eq = s.eq := rfl
@[simp] theorem State.advance_prog (n : Nat) : (s.advance n).prog = s.prog := rfl
@[simp] theorem State.advance_runState (n : Nat) : (s.advance n).runState = s.runState := rfl
@[simp] theorem State.advance_stopCause (n : Nat) : (s.advance n).stopCause = s.stopCause := rfl
@[simp] theorem State.advance_cfg (n : Nat) : (s.advance n).cfg = s.cfg := rfl

/-! ### `State.raiseFault` -/

@[simp] theorem State.raiseFault_x (f : StopCause) : (s.raiseFault f).x = s.x := rfl
@[simp] theorem State.raiseFault_pc (f : StopCause) : (s.raiseFault f).pc = s.pc + 1 := rfl
@[simp] theorem State.raiseFault_rem (f : StopCause) : (s.raiseFault f).rem = s.rem := rfl
@[simp] theorem State.raiseFault_eq (f : StopCause) : (s.raiseFault f).eq = s.eq := rfl
@[simp] theorem State.raiseFault_prog (f : StopCause) : (s.raiseFault f).prog = s.prog := rfl
@[simp] theorem State.raiseFault_runState (f : StopCause) : (s.raiseFault f).runState = .stopped := rfl
@[simp] theorem State.raiseFault_stopCause (f : StopCause) : (s.raiseFault f).stopCause = f := rfl
@[simp] theorem State.raiseFault_cfg (f : StopCause) : (s.raiseFault f).cfg = s.cfg := rfl

/-! ### `State.initial` and the host's Reset -/

@[simp] theorem State.initial_x (c : Config) : (State.initial c).x = Vector.replicate 32 0 := rfl
@[simp] theorem State.initial_pc (c : Config) : (State.initial c).pc = 0 := rfl
@[simp] theorem State.initial_rem (c : Config) : (State.initial c).rem = 0 := rfl
@[simp] theorem State.initial_eq (c : Config) : (State.initial c).eq = false := rfl
@[simp] theorem State.initial_prog (c : Config) : (State.initial c).prog = [] := rfl
@[simp] theorem State.initial_runState (c : Config) : (State.initial c).runState = .running := rfl
@[simp] theorem State.initial_stopCause (c : Config) : (State.initial c).stopCause = .none := rfl
@[simp] theorem State.initial_cfg (c : Config) : (State.initial c).cfg = c := rfl

@[simp] theorem hostReset_x (c : Bool) : (hostReset c s).x = Vector.replicate 32 0 := rfl
@[simp] theorem hostReset_pc (c : Bool) : (hostReset c s).pc = 0 := rfl
@[simp] theorem hostReset_rem (c : Bool) : (hostReset c s).rem = s.rem := rfl
@[simp] theorem hostReset_eq (c : Bool) : (hostReset c s).eq = s.eq := rfl
@[simp] theorem hostReset_prog (c : Bool) : (hostReset c s).prog = if c then [] else s.prog := rfl
@[simp] theorem hostReset_runState (c : Bool) : (hostReset c s).runState = .running := rfl
@[simp] theorem hostReset_stopCause (c : Bool) : (hostReset c s).stopCause = .none := rfl
@[simp] theorem hostReset_cfg (c : Bool) : (hostReset c s).cfg = s.cfg := rfl

/-! ### Registers -/

theorem State.reg_setReg_same (i : Fin 32) (v : Word) : (s.setReg i v).reg i = v := by
  simp [State.reg]

theorem State.reg_setReg_other {i j : Fin 32} (v : Word) (h : i ≠ j) : (s.setReg i v).reg j = s.reg j := by
  have : i.val ≠ j.val := fun e => h (Fin.ext e)
  simp [State.reg, Vector.getElem_set_ne, this]

/-! Updates that leave the register file alone, by register. -/

@[simp] theorem State.reg_setPc (t : Word) (i : Fin 32) : (s.setPc t).reg i = s.reg i := rfl
@[simp] theorem State.sreg_setPc (t : Word) (i : Fin 32) : (s.setPc t).sreg i = s.sreg i := rfl
@[simp] theorem State.reg_setRem (v : Word) (i : Fin 32) : (s.setRem v).reg i = s.reg i := rfl
@[simp] theorem State.sreg_setRem (v : Word) (i : Fin 32) : (s.setRem v).sreg i = s.sreg i := rfl
@[simp] theorem State.reg_setEq (b : Bool) (i : Fin 32) : (s.setEq b).reg i = s.reg i := rfl
@[simp] theorem State.sreg_setEq (b : Bool) (i : Fin 32) : (s.setEq b).sreg i = s.sreg i := rfl
@[simp] theorem State.reg_resume (i : Fin 32) : (s.resume).reg i = s.reg i := rfl
@[simp] theorem State.sreg_resume (i : Fin 32) : (s.resume).sreg i = s.sreg i := rfl
@[simp] theorem State.reg_stop (c : StopCause) (i : Fin 32) : (s.stop c).reg i = s.reg i := rfl
@[simp] theorem State.sreg_stop (c : StopCause) (i : Fin 32) : (s.stop c).sreg i = s.sreg i := rfl
@[simp] theorem State.reg_advance (n : Nat) (i : Fin 32) : (s.advance n).reg i = s.reg i := rfl
@[simp] theorem State.sreg_advance (n : Nat) (i : Fin 32) : (s.advance n).sreg i = s.sreg i := rfl
@[simp] theorem State.reg_raiseFault (f : StopCause) (i : Fin 32) : (s.raiseFault f).reg i = s.reg i := rfl
@[simp] theorem State.sreg_raiseFault (f : StopCause) (i : Fin 32) : (s.raiseFault f).sreg i = s.sreg i := rfl

theorem State.sreg_setReg_same (i : Fin 32) (v : Word) : (s.setReg i v).sreg i = v.toInt := by
  rw [State.sreg, State.reg_setReg_same]

theorem State.sreg_setReg_other {i j : Fin 32} (v : Word) (h : i ≠ j) : (s.setReg i v).sreg j = s.sreg j := by
  rw [State.sreg, State.reg_setReg_other s v h, State.sreg]

/-- A register of a state depends on nothing but the register file. -/
theorem State.reg_congr {s t : State} (h : t.x = s.x) (i : Fin 32) : t.reg i = s.reg i := by
  simp only [State.reg, h]

/-- Two states with the same registers one by one have the same register file. -/
theorem State.x_ext {s t : State} (h : ∀ i, t.reg i = s.reg i) : t.x = s.x := by
  apply Vector.ext
  intro k hk
  exact h ⟨k, hk⟩

end Sys2Proof.Machine
end

