-- ==== Sys2Proof/Laws/Ops.lean ====
section
/-! SUPPORT. For each shared operation, once, everything it can do; a later proof cites these and unfolds none of them. -/

namespace Sys2Proof.Machine

/-! ### Register-index checks -/

theorem regIndex_some {b : Byte} (h : b.toNat ≤ 31) : regIndex b = some ⟨b.toNat, by omega⟩ := by
  have h' : b.toNat < 32 := by omega
  simp only [regIndex, dif_pos h']

theorem regIndex_none {b : Byte} (h : 31 < b.toNat) : regIndex b = none := by
  have h' : ¬ b.toNat < 32 := by omega
  simp only [regIndex, dif_neg h']

/-- A byte names register `i` exactly when it is `i` (R23). -/
theorem regIndex_eq_some {b : Byte} {i : Fin 32} : regIndex b = some i ↔ b.toNat = i.val := by
  constructor
  · intro h
    by_cases hb : b.toNat < 32
    · simp only [regIndex, dif_pos hb, Option.some.injEq] at h
      exact congrArg Fin.val h
    · simp [regIndex, hb] at h
  · intro h
    have hb : b.toNat < 32 := by omega
    simp only [regIndex, dif_pos hb, Option.some.injEq]
    exact Fin.ext h

theorem withReg_valid {b : Byte} {s : State} {k : Fin 32 → Host.Outcome State Fault Refusal} {i : Fin 32}
    (h : b.toNat = i.val) : withReg b s k = k i := by
  rw [withReg, regIndex_eq_some.mpr h]

theorem withReg_invalid {b : Byte} {s : State} {k : Fin 32 → Host.Outcome State Fault Refusal}
    (h : 31 < b.toNat) : withReg b s k = s.raised .regIndex := by
  rw [withReg, regIndex_none h]

/-- Everything one index check can do (R105). -/
theorem withReg_cases (b : Byte) (s : State) (k : Fin 32 → Host.Outcome State Fault Refusal) :
    (∃ i : Fin 32, b.toNat = i.val ∧ withReg b s k = k i) ∨
      (31 < b.toNat ∧ withReg b s k = s.raised .regIndex) := by
  rcases Nat.lt_or_ge b.toNat 32 with h | h
  · exact .inl ⟨⟨b.toNat, h⟩, rfl, withReg_valid rfl⟩
  · exact .inr ⟨by omega, withReg_invalid (by omega)⟩

/-! ### Narrowing and jumping -/

/-- Everything the narrowing of an arithmetic result can do (R150, R156). -/
theorem State.narrow_cases (s : State) (v : Int) (k : Word → Host.Outcome State Fault Refusal) :
    ((fits32 v = true ∨ s.cfg.arithOverflow = .wrap) ∧ s.narrow v k = k (bits32 v)) ∨
      (fits32 v = false ∧ s.cfg.arithOverflow = .fault ∧ s.narrow v k = s.raised .overflow) := by
  unfold State.narrow
  cases hv : fits32 v <;> cases hm : s.cfg.arithOverflow <;> simp

/-- Everything a jump to an exact target can do (R170). -/
theorem State.jumpTo_cases (s : State) (t : Int) :
    ((0 ≤ t ∧ t ≤ 4294967295) ∧ s.jumpTo t = .next (s.setPc (BitVec.ofInt 32 t)).resume) ∨
      (¬ (0 ≤ t ∧ t ≤ 4294967295) ∧ s.jumpTo t = s.raised .badJump) := by
  unfold State.jumpTo
  by_cases h : 0 ≤ t ∧ t ≤ 4294967295
  · exact .inl ⟨h, if_pos h⟩
  · exact .inr ⟨h, if_neg h⟩

/-- Everything the sign check of a jump's register can do (R170). -/
theorem State.withJumpValue_cases (s : State) (i : Fin 32) (k : Int → Host.Outcome State Fault Refusal) :
    (0 ≤ s.sreg i ∧ s.withJumpValue i k = k (s.sreg i)) ∨
      (s.sreg i < 0 ∧ s.withJumpValue i k = s.raised .badJump) := by
  unfold State.withJumpValue
  by_cases h : s.sreg i < 0
  · exact .inr ⟨h, if_pos h⟩
  · exact .inl ⟨by omega, if_neg h⟩

/-- A jump target of R170 is held exactly by the 32-bit pc. -/
theorem toNat_ofInt_target {t : Int} (h0 : 0 ≤ t) (h1 : t ≤ 4294967295) :
    ((BitVec.ofInt 32 t).toNat : Int) = t := by
  rw [BitVec.toNat_ofInt]
  omega

/-- A value that fits is not changed by narrowing (R11). -/
theorem toInt_bits32 {v : Int} (h : fits32 v = true) : (bits32 v).toInt = v := by
  simp only [fits32, decide_eq_true_eq] at h
  rw [bits32, BitVec.toInt_ofInt, Int.bmod_def]
  split <;> omega

/-- The remainder of truncating division is `Int.tmod` (R11, R152). -/
theorem trem_eq_tmod (a b : Int) : trem a b = Int.tmod a b := by
  unfold trem tdiv
  have := Int.tmod_add_mul_tdiv a b
  omega

/-! ### Endings -/

@[simp] theorem State.signal_stop (s : State) {c : StopCause} (h : c ≠ .none) : (s.stop c).signal = .stop :=
  if_neg h

@[simp] theorem State.signal_resume (s : State) : s.resume.signal = .cont := rfl

/-- A fault leaves exactly what R230 says. -/
theorem State.raiseFault_faultedFrom (s : State) {f : StopCause} (h : f ≠ .none) :
    s.FaultedFrom (s.raiseFault f) f :=
  ⟨⟨fun _ => rfl, rfl, rfl⟩, ⟨fun _ => rfl, rfl, rfl⟩, rfl, rfl, rfl, State.signal_stop _ h⟩

/-- Raising a fault is taking it. -/
theorem State.raised_takesFault (s : State) {f : StopCause} (h : f ≠ .none) : TakesFault (s.raised f) s f :=
  ⟨s.raiseFault f, rfl, s.raiseFault_faultedFrom h⟩

/-- After a fault, a stop, or a Continue the status registers agree (R37). -/
theorem State.stop_statusAgrees (s : State) {c : StopCause} (h : c ≠ .none) : (s.stop c).StatusAgrees := by
  simp [State.StatusAgrees, h]

theorem State.resume_statusAgrees (s : State) : s.resume.StatusAgrees := by
  simp [State.StatusAgrees]

/-! ### The shared instruction forms -/

/-- Everything the ADD, SUB, MUL form can do (R105, R150, R156). -/
theorem State.arith_cases (s : State) (op : Int → Int → Int) (rs1 rs2 rd : Byte) :
    ((31 < rs1.toNat ∨ 31 < rs2.toNat ∨ 31 < rd.toNat) ∧ s.arith op rs1 rs2 rd = s.raised .regIndex) ∨
      ∃ a b d : Fin 32, (rs1.toNat = a.val ∧ rs2.toNat = b.val ∧ rd.toNat = d.val) ∧
        (((fits32 (op (s.sreg a) (s.sreg b)) = true ∨ s.cfg.arithOverflow = .wrap) ∧
            s.arith op rs1 rs2 rd = .next ((s.setReg d (bits32 (op (s.sreg a) (s.sreg b)))).advance 4).resume) ∨
          (fits32 (op (s.sreg a) (s.sreg b)) = false ∧ s.cfg.arithOverflow = .fault ∧
            s.arith op rs1 rs2 rd = s.raised .overflow)) := by
  unfold State.arith
  rcases withReg_cases rs1 s _ with ⟨a, ha, h⟩ | ⟨ha, h⟩ <;> rw [h]
  · rcases withReg_cases rs2 s _ with ⟨b, hb, h⟩ | ⟨hb, h⟩ <;> rw [h]
    · rcases withReg_cases rd s _ with ⟨d, hd, h⟩ | ⟨hd, h⟩ <;> rw [h]
      · exact .inr ⟨a, b, d, ⟨ha, hb, hd⟩, s.narrow_cases _ _⟩
      · exact .inl ⟨.inr (.inr hd), rfl⟩
    · exact .inl ⟨.inr (.inl hb), rfl⟩
  · exact .inl ⟨.inl ha, rfl⟩

/-- Everything a comparison can do (R105, R191). -/
theorem State.compare_cases (s : State) (r : Relation) (rs1 rs2 : Byte) :
    ((31 < rs1.toNat ∨ 31 < rs2.toNat) ∧ s.compare r rs1 rs2 = s.raised .regIndex) ∨
      ∃ a b : Fin 32, (rs1.toNat = a.val ∧ rs2.toNat = b.val) ∧
        s.compare r rs1 rs2 = .next ((s.setEq (r.holds (s.sreg a) (s.sreg b))).advance 4).resume := by
  unfold State.compare
  rcases withReg_cases rs1 s _ with ⟨a, ha, h⟩ | ⟨ha, h⟩ <;> rw [h]
  · rcases withReg_cases rs2 s _ with ⟨b, hb, h⟩ | ⟨hb, h⟩ <;> rw [h]
    · exact .inr ⟨a, b, ⟨ha, hb⟩, rfl⟩
    · exact .inl ⟨.inr hb, rfl⟩
  · exact .inl ⟨.inl ha, rfl⟩

/-- Everything a jump to an exact target from a register can do (R105, R170); `f` is the target from the register's value. -/
theorem State.jump_cases (s : State) (ra : Byte) (f : Int → Int) :
    (31 < ra.toNat ∧ withReg ra s (fun r => s.withJumpValue r fun v => s.jumpTo (f v)) = s.raised .regIndex) ∨
      ∃ r : Fin 32, ra.toNat = r.val ∧
        (((0 ≤ s.sreg r ∧ 0 ≤ f (s.sreg r) ∧ f (s.sreg r) ≤ 4294967295) ∧
            withReg ra s (fun r => s.withJumpValue r fun v => s.jumpTo (f v)) =
              .next (s.setPc (BitVec.ofInt 32 (f (s.sreg r)))).resume) ∨
          (¬ (0 ≤ s.sreg r ∧ 0 ≤ f (s.sreg r) ∧ f (s.sreg r) ≤ 4294967295) ∧
            withReg ra s (fun r => s.withJumpValue r fun v => s.jumpTo (f v)) = s.raised .badJump)) := by
  rcases withReg_cases ra s (fun r => s.withJumpValue r fun v => s.jumpTo (f v)) with ⟨r, hr, h⟩ | ⟨hr, h⟩
  · rw [h]
    refine .inr ⟨r, hr, ?_⟩
    rcases s.withJumpValue_cases r (fun v => s.jumpTo (f v)) with ⟨h0, h⟩ | ⟨h0, h⟩ <;> rw [h]
    · rcases s.jumpTo_cases (f (s.sreg r)) with ⟨h1, h⟩ | ⟨h1, h⟩ <;> rw [h]
      · exact .inl ⟨⟨h0, h1⟩, rfl⟩
      · exact .inr ⟨fun hc => h1 hc.2, rfl⟩
    · exact .inr ⟨fun hc => by omega, rfl⟩
  · exact .inl ⟨hr, h⟩

/-! ### Fetch -/

theorem Fetched.ofDecoded_ne_noByte (d : Decoded) : Fetched.ofDecoded d ≠ .noByte := by
  cases d <;> simp [Fetched.ofDecoded]

/-- Stages 1 to 3 on a buffer in canonical form find every byte they look for. -/
theorem State.fetch_ne_noByte (s : State) (h : s.prog.wf = true) : s.fetch ≠ .noByte := by
  unfold State.fetch
  split
  · simp
  split
  · simp
  · rename_i hlen
    obtain ⟨b0, hb⟩ := s.prog.get_isSome h (a := s.pc.toNat) (by simpa [State.len] using hlen)
    rw [hb]
    simp only [State.fetchOperands]
    split
    · simp
    · rename_i hn
      obtain ⟨bs, hbs, -⟩ := s.prog.read_isSome h (operandCount (decodeOpcode b0)) (s.pc.toNat + 1)
        (by simp only [State.len] at hn; omega)
      rw [hbs]
      exact Fetched.ofDecoded_ne_noByte _

end Sys2Proof.Machine
end

