-- ==== Sys2Proof/Laws/Fetch.lean ====
section
/-! SUPPORT. The fetch, in two views: by the byte at the pc, and by the list of bytes from the pc on. -/

namespace Sys2Proof.Machine

/-- `MemRead` on a buffer in canonical form is a slice of its bytes (R11). -/
theorem Memory.read_eq_bytes (m : Memory) (h : m.wf = true) (n a : Nat) (ha : a + n ≤ m.length) :
    m.read a n = some ((m.bytes.drop a).take n) := by
  induction n generalizing a with
  | zero => simp [Memory.read]
  | succ n ih =>
    have hlt : a < m.bytes.length := by simp only [Memory.bytes, List.length_map]; omega
    rw [Memory.read, m.get_eq_bytes h, List.getElem?_eq_getElem hlt, ih (a + 1) (by omega),
      List.drop_eq_getElem_cons hlt]
    rfl

/-- A read that succeeds on a buffer in canonical form lies below `len`. -/
theorem Memory.read_lt (m : Memory) (h : m.wf = true) (n a : Nat) (bs : List Byte)
    (hr : m.read a (n + 1) = some bs) : a + (n + 1) ≤ m.length := by
  induction n generalizing a bs with
  | zero =>
    by_contra hc
    simp [Memory.read, m.get_none h (a := a) (by omega)] at hr
  | succ n ih =>
    rw [Memory.read] at hr
    cases h1 : m.get a <;> cases h2 : m.read (a + 1) (n + 1) <;> simp [h1, h2] at hr
    have := ih (a + 1) _ h2
    omega

theorem State.fetch_of_faulted {s : State} (h : s.faulted = true) : s.fetch = .faulted := by
  rw [State.fetch, if_pos h]

theorem State.fetch_at_end {s : State} (h : s.faulted = false) (he : s.len ≤ s.pc.toNat) : s.fetch = .atEnd := by
  rw [State.fetch, if_neg (by simp [h]), if_pos he]

/-- Stage 2 with the byte at the pc. -/
theorem State.fetch_at_opcode {s : State} {b0 : Byte} (h : s.AtOpcode b0) : s.fetch = s.fetchOperands b0 := by
  obtain ⟨hi, hf, hb⟩ := h
  have hlt : ¬ s.len ≤ s.pc.toNat := fun hc => by rw [s.prog.get_none hi.1 hc] at hb; simp at hb
  rw [State.fetch, if_neg (by simp [hf]), if_neg hlt, hb]

/-- The opcode byte lies below `len`. -/
theorem State.AtOpcode_lt {s : State} {b0 : Byte} (h : s.AtOpcode b0) : s.pc.toNat < s.len := by
  by_contra hc
  have := s.prog.get_none h.1.1 (a := s.pc.toNat) (by simpa [State.len] using hc)
  have hb := h.2.2
  rw [this] at hb
  simp at hb

/-- Stage 3 with operand bytes missing. -/
theorem State.fetch_truncated {s : State} {b0 : Byte} (h : s.AtOpcode b0)
    (hn : s.len < s.pc.toNat + 1 + operandCount (decodeOpcode b0)) : s.fetch = .truncated := by
  rw [State.fetch_at_opcode h, State.fetchOperands, if_pos hn]

/-- Stage 3 with the operand bytes in place. -/
theorem State.fetch_operands {s : State} {b0 : Byte} {bs : List Byte} (h : s.AtOpcode b0)
    (hl : bs.length = operandCount (decodeOpcode b0)) (hb : s.OperandsAre bs) :
    s.fetch = .ofDecoded (decode (b0 :: bs)) := by
  have hle : ¬ s.len < s.pc.toNat + 1 + operandCount (decodeOpcode b0) := by
    rw [← hl]
    cases bs with
    | nil => have := State.AtOpcode_lt h; simp; omega
    | cons b bs =>
      have := s.prog.read_lt h.1.1 bs.length (s.pc.toNat + 1) (b :: bs) hb
      simp only [State.len, List.length_cons]
      omega
  rw [State.fetch_at_opcode h, State.fetchOperands, if_neg hle, ← hl, hb]

/-- Bytes after an instruction's own do not change what is decoded. -/
theorem ofDecoded_take (op : Opcode) (b0 : Byte) (bs : List Byte) :
    Fetched.ofDecoded (decodeOperands op b0 (bs.take (operandCount op))) =
      Fetched.ofDecoded (decodeOperands op b0 bs) := by
  cases op <;> first
    | rfl
    | (match bs with
       | [] => rfl
       | [_] => rfl
       | [_, _] => rfl
       | _ :: _ :: _ :: _ => rfl)

/-- The fetch of an engine that is not faulted is the decoding of the bytes from the pc on. -/
theorem State.fetch_eq_decode (s : State) (hw : s.prog.wf = true) (hf : s.faulted = false) :
    s.fetch = .ofDecoded (decode (s.prog.bytes.drop s.pc.toNat)) := by
  have hlen : s.prog.bytes.length = s.len := by simp [Memory.bytes, State.len]
  by_cases he : s.len ≤ s.pc.toNat
  · rw [State.fetch_at_end hf he, List.drop_eq_nil_of_le (by omega)]
    rfl
  · have hlt : s.pc.toNat < s.prog.bytes.length := by omega
    rw [List.drop_eq_getElem_cons hlt, State.fetch, if_neg (by simp [hf]), if_neg he, s.prog.get_eq_bytes hw,
      List.getElem?_eq_getElem hlt, decode]
    show s.fetchOperands _ = _
    generalize s.prog.bytes[s.pc.toNat] = b0
    rw [State.fetchOperands]
    split
    · rename_i hn
      rcases decodeOperands_cases (decodeOpcode b0) b0 (s.prog.bytes.drop (s.pc.toNat + 1)) with
        ⟨i, rest, -, ho, hb, hl⟩ | ⟨-, h⟩
      · have := congrArg List.length hb
        simp only [List.length_drop, List.length_append, hl] at this
        omega
      · rw [h]
        rfl
    · rename_i hn
      rw [s.prog.read_eq_bytes hw _ _ (by simp only [State.len] at hn; omega)]
      exact ofDecoded_take _ b0 _

/-- A fetched instruction: the engine was not faulted, and every byte of the instruction lies below `len`. -/
theorem State.fetch_instr {s : State} {i : Instr} (hw : s.prog.wf = true) (h : s.fetch = .instr i) :
    s.faulted = false ∧ s.pc.toNat + i.length ≤ s.len := by
  have hf : s.faulted = false := by
    by_contra hc
    rw [State.fetch_of_faulted (by simpa using hc)] at h
    simp at h
  refine ⟨hf, ?_⟩
  rw [s.fetch_eq_decode hw hf] at h
  have hlen : s.prog.bytes.length = s.len := by simp [Memory.bytes, State.len]
  cases hd : s.prog.bytes.drop s.pc.toNat with
  | nil => rw [hd] at h; simp [decode, Fetched.ofDecoded] at h
  | cons b0 bs =>
    have hlb := congrArg List.length hd
    simp only [List.length_drop, List.length_cons] at hlb
    rw [hd, decode] at h
    rcases decodeOperands_cases (decodeOpcode b0) b0 bs with ⟨j, rest, hj, ho, hb, hl⟩ | ⟨-, hj⟩
    · rw [hj] at h
      simp only [Fetched.ofDecoded, Fetched.instr.injEq] at h
      subst h
      have := congrArg List.length hb
      simp only [List.length_append, hl] at this
      rw [Instr.length, ho]
      omega
    · rw [hj] at h
      simp [Fetched.ofDecoded] at h

end Sys2Proof.Machine
end

