-- ==== Sys2Proof/Laws/PerInstr.lean ====
section
/-! SUPPORT. One statement about every instruction as syntax, one lemma per constructor. Family `Layout`: the operand bytes of an
instruction are as many as its opcode's layout has roles, and its encoding, where it has one, is the opcode's byte followed by
them (spec/30_encoding.md R86 to R88). -/

namespace Sys2Proof.Laws.Layout

/-- The layout of one instruction. -/
def Statement (i : Instr) : Prop :=
  i.operandBytes.length = operandCount i.opcode ∧
    ∀ bs, i.encode = some bs → bs.length = i.length ∧ (bs.head?).map decodeOpcode = some i.opcode

/-- The lemmas below by the opcode's own facts. -/
theorem of_operands (i : Instr) (h : i.operandBytes.length = operandCount i.opcode) : Statement i := by
  refine ⟨h, fun bs hbs => ?_⟩
  cases hop : encodeOpcode i.opcode with
  | none => simp [Instr.encode, hop] at hbs
  | some b =>
    simp only [Instr.encode, hop, Option.map_some, Option.some.injEq] at hbs
    subst hbs
    exact ⟨by simp [Instr.length, h, Nat.add_comm], by simp [decodeOpcode_of_encodeOpcode hop]⟩

theorem halt : Statement .halt := of_operands _ rfl
theorem load (rd : Byte) (imm : Imm16) : Statement (.load rd imm) := of_operands _ rfl
theorem add (rs1 rs2 rd : Byte) : Statement (.add rs1 rs2 rd) := of_operands _ rfl
theorem sub (rs1 rs2 rd : Byte) : Statement (.sub rs1 rs2 rd) := of_operands _ rfl
theorem mul (rs1 rs2 rd : Byte) : Statement (.mul rs1 rs2 rd) := of_operands _ rfl
theorem div (rs1 rs2 rd : Byte) : Statement (.div rs1 rs2 rd) := of_operands _ rfl
theorem jumpAbsolute (ra : Byte) : Statement (.jumpAbsolute ra) := of_operands _ rfl
theorem jumpForward (ra : Byte) : Statement (.jumpForward ra) := of_operands _ rfl
theorem jumpBackward (ra : Byte) : Statement (.jumpBackward ra) := of_operands _ rfl
theorem equal (rs1 rs2 pad : Byte) : Statement (.equal rs1 rs2 pad) := of_operands _ rfl
theorem notEqual (rs1 rs2 pad : Byte) : Statement (.notEqual rs1 rs2 pad) := of_operands _ rfl
theorem lessThan (rs1 rs2 pad : Byte) : Statement (.lessThan rs1 rs2 pad) := of_operands _ rfl
theorem greaterThan (rs1 rs2 pad : Byte) : Statement (.greaterThan rs1 rs2 pad) := of_operands _ rfl
theorem lessOrEqual (rs1 rs2 pad : Byte) : Statement (.lessOrEqual rs1 rs2 pad) := of_operands _ rfl
theorem greaterOrEqual (rs1 rs2 pad : Byte) : Statement (.greaterOrEqual rs1 rs2 pad) := of_operands _ rfl
theorem jumpIfEqual (ra : Byte) : Statement (.jumpIfEqual ra) := of_operands _ rfl
theorem print : Statement .print := of_operands _ rfl
theorem nop : Statement .nop := of_operands _ rfl
theorem illegal (byte : Byte) : Statement (.illegal byte) := of_operands _ rfl

end Sys2Proof.Laws.Layout
end

