-- ==== Sys2Proof/Tests/Slice0.lean ====
section
/-! SUPPORT. Tests of one operation each, with results from spec/95_test_vectors.md (the vector's name stands beside the test) or
from the encoding tables of spec/30_encoding.md; then, for every statement that has hypotheses, a state and operands that meet
them, one per clause at the edge of its range. -/

namespace Sys2Proof.Tests

open Sys2Proof.Machine Sys2Proof.Claims

/-- The engine fresh from Initialize with a buffer, a pc and some registers. -/
def st (bs : List Byte) (pc : Word := 0) (regs : List (Fin 32 × Int) := []) : State :=
  regs.foldl (fun s p => s.setReg p.1 (bits32 p.2)) { State.reset with prog := Memory.ofBytes bs, pc := pc }

/-- The same with `ARITH_OVERFLOW` = FAULT. -/
def stF (bs : List Byte) (regs : List (Fin 32 × Int)) : State :=
  { st bs 0 regs with cfg := { arithOverflow := .fault, progCapacity := 4294967295 } }

/-- The step answers a next state with the given pc, cause and whatever else `p` says. -/
def ends (o : Host.Outcome State Fault Refusal) (pc : Nat) (c : StopCause) (p : State → Bool := fun _ => true) : Bool :=
  match o with
  | .next t =>
    decide (t.pc.toNat = pc) && decide (t.stopCause = c) && decide (t.runState = .running ↔ c = .none) && p t
  | .fault _ => false
  | .refused _ => false

/-! ### Decoding: one word per constructor, from the rows of R81 and the formats R72 to R76 -/

theorem test_decode_halt : decode [0b00000000] = .instr .halt [] := by decide
theorem test_decode_load : decode [0b00001010, 3, 0x80, 0x01] = .instr (.load 3 0x8001) [] := by decide
theorem test_decode_add : decode [0b00001011, 1, 2, 3] = .instr (.add 1 2 3) [] := by decide
theorem test_decode_sub : decode [0b00001100, 1, 2, 3] = .instr (.sub 1 2 3) [] := by decide
theorem test_decode_mul : decode [0b00001101, 1, 2, 3] = .instr (.mul 1 2 3) [] := by decide
theorem test_decode_div : decode [0b00001110, 1, 2, 3] = .instr (.div 1 2 3) [] := by decide
theorem test_decode_jmp : decode [0b00001111, 4, 9] = .instr (.jumpAbsolute 4) [9] := by decide
theorem test_decode_jmpf : decode [0b00010000, 5] = .instr (.jumpForward 5) [] := by decide
theorem test_decode_jmpb : decode [0b00010001, 6] = .instr (.jumpBackward 6) [] := by decide
theorem test_decode_eq : decode [0b00010010, 1, 2, 77] = .instr (.equal 1 2 77) [] := by decide
theorem test_decode_neq : decode [0b00010011, 1, 2, 77] = .instr (.notEqual 1 2 77) [] := by decide
theorem test_decode_lt : decode [0b00010100, 1, 2, 77] = .instr (.lessThan 1 2 77) [] := by decide
theorem test_decode_gt : decode [0b00010101, 1, 2, 77] = .instr (.greaterThan 1 2 77) [] := by decide
theorem test_decode_lte : decode [0b00010110, 1, 2, 77] = .instr (.lessOrEqual 1 2 77) [] := by decide
theorem test_decode_gte : decode [0b00010111, 1, 2, 77] = .instr (.greaterOrEqual 1 2 77) [] := by decide
theorem test_decode_jeq : decode [0b00011000, 7] = .instr (.jumpIfEqual 7) [] := by decide
theorem test_decode_print : decode [0b11111110, 1] = .instr .print [1] := by decide
theorem test_decode_nop : decode [0b11111111] = .instr .nop [] := by decide
theorem test_decode_illegal : decode [9, 0] = .instr (.illegal 9) [0] ∧ decode [25] = .instr (.illegal 25) [] := by decide

/-- A missing operand byte is named by its opcode; no byte at all is no instruction. -/
theorem test_decode_refuses : decode [0b00010010, 0, 1] = .truncated .equal ∧ decode [] = .noBytes := by decide

/-- Table words number the first byte 7..0; operand bits the table leaves out are zero. -/
theorem test_table_word : decodeTableWord 32 0x0302010B = some (.add 1 2 3) := by decide

theorem test_table_word_short : decodeTableWord 8 24 = some (.jumpIfEqual 0) := by decide

/-! ### Well-formedness: each check refuses an ill-formed term -/

theorem test_wf_load : Instr.wf (.load 31 0) = true ∧ Instr.wf (.load 32 0) = false := by decide
theorem test_wf_three_registers :
    Instr.wf (.add 32 0 0) = false ∧ Instr.wf (.sub 0 32 0) = false ∧ Instr.wf (.div 0 0 255) = false := by decide
theorem test_wf_jump : Instr.wf (.jumpIfEqual 31) = true ∧ Instr.wf (.jumpAbsolute 40) = false := by decide
theorem test_wf_pad_is_free :
    Instr.wf (.equal 0 31 255) = true ∧ Instr.wf (.equal 0 32 0) = false ∧ Instr.wf (.lessThan 32 0 0) = false := by decide
theorem test_wf_illegal :
    Instr.wf (.illegal 9) = true ∧ Instr.wf (.illegal 10) = false ∧ Instr.wf (.illegal 254) = false := by decide

/-! ### One step each, by the vectors of spec/95_test_vectors.md -/

/-- L5, L7: zero extension over the whole register. -/
theorem test_load_zero_extends :
    ends (step (st [10, 7, 128, 0] 0 [(7, -1)])) 4 .none (fun t => t.sreg 7 == 32768) = true := by decide
/-- L8. -/
theorem test_load_bad_index : ends (step (st [10, 32, 0, 1])) 1 .regIndex = true := by decide
/-- A7. -/
theorem test_add_wraps :
    ends (step (st [11, 0, 1, 2] 0 [(0, 2147483647), (1, 1)])) 4 .none (fun t => t.sreg 2 == -2147483648) = true := by
  decide
/-- A8. -/
theorem test_add_overflow_fault :
    ends (step (stF [11, 0, 1, 2] [(0, 2147483647), (1, 1)])) 1 .overflow (fun t => t.sreg 2 == 0) = true := by decide
/-- A2. -/
theorem test_sub_order : ends (step (st [12, 1, 0, 2] 0 [(0, 5), (1, 10)])) 4 .none (fun t => t.sreg 2 == 5) = true := by
  decide
/-- A12. -/
theorem test_sub_destination_is_source :
    ends (step (st [12, 2, 0, 2] 0 [(0, 7)])) 4 .none (fun t => t.sreg 2 == -7) = true := by decide
/-- A22. -/
theorem test_mul_wraps :
    ends (step (st [13, 0, 1, 2] 0 [(0, 46341), (1, 46341)])) 4 .none (fun t => t.sreg 2 == -2147479015) = true := by
  decide
/-- A23. -/
theorem test_mul_fits_under_fault :
    ends (step (stF [13, 0, 1, 2] [(0, 46340), (1, 46340)])) 4 .none (fun t => t.sreg 2 == 2147395600) = true := by decide
/-- D2. -/
theorem test_div_negative_dividend :
    ends (step (st [14, 0, 1, 2] 0 [(0, -7), (1, 2)])) 4 .none
      (fun t => t.sreg 2 == -3 && t.rem == 4294967295) = true := by decide
/-- D15: the index check comes before the divisor test. -/
theorem test_div_priority : ends (step (st [14, 0, 1, 40] 0 [(0, 7)])) 1 .regIndex = true := by decide
/-- J6. -/
theorem test_jmp_top : ends (step (st [15, 4] 0 [(4, 2147483647)])) 2147483647 .none = true := by decide
/-- J5, at another address. -/
theorem test_jmp_negative : ends (step (st [255, 15, 4] 1 [(4, -1)])) 2 .badJump = true := by decide
/-- J11, at another address. -/
theorem test_jmpf_base : ends (step (st [16, 0] 0 [(0, 4)])) 6 .none = true := by decide
/-- J13, at another address: the sum is beyond 2^31. -/
theorem test_jmpf_above_signed_range : ends (step (st [16, 0] 0 [(0, 2147483647)])) 2147483649 .none = true := by decide
/-- J26. -/
theorem test_jmpb_to_zero : ends (step (st [17, 0] 0 [(0, 2)])) 0 .none = true := by decide
/-- J27. -/
theorem test_jmpb_past_zero : ends (step (st [17, 0] 0 [(0, 3)])) 1 .badJump = true := by decide
/-- C6, and C2 with its pad byte. -/
theorem test_eq_pad :
    ends (step (st [18, 0, 1])) 1 .truncated (fun t => t.eq == false) = true ∧
      ends (step (st [18, 0, 1, 77])) 4 .none (fun t => t.eq == true) = true := by decide
/-- C11, at address 0. -/
theorem test_neq_overwrites : ends (step ((st [19, 0, 1, 0]).setEq true)) 4 .none (fun t => t.eq == false) = true := by
  decide
/-- C9: signed, and the pad byte is no register index. -/
theorem test_lt_signed :
    ends (step (st [20, 0, 1, 200] 0 [(0, -1), (1, 1)])) 4 .none (fun t => t.eq == true) = true := by decide
/-- C10. -/
theorem test_gt_signed :
    ends (step ((st [21, 0, 1, 0] 0 [(0, -1), (1, 1)]).setEq true)) 4 .none (fun t => t.eq == false) = true := by decide
/-- C5. -/
theorem test_lte_same : ends (step (st [22, 3, 3, 0] 0 [(3, 9)])) 4 .none (fun t => t.eq == true) = true := by decide
/-- Row -2147483648, 2147483647 of the truth table. -/
theorem test_gte_signed :
    ends (step ((st [23, 0, 1, 0] 0 [(0, -2147483648), (1, 2147483647)]).setEq true)) 4 .none
      (fun t => t.eq == false) = true := by decide
/-- J32 and J34, at address 0: the value is not examined, the index is. -/
theorem test_jeq_not_taken :
    ends (step (st [24, 4] 0 [(4, -5)])) 2 .none = true ∧ ends (step (st [24, 32])) 1 .regIndex = true := by decide
/-- J30: taken, and the flag stays. -/
theorem test_jeq_taken :
    ends (step ((st [24, 4] 0 [(4, 20)]).setEq true)) 20 .none (fun t => t.eq == true) = true := by decide
/-- Y1. -/
theorem test_halt : ends (step (st [0])) 1 .halt = true := by decide
/-- Y2. -/
theorem test_nop : ends (step (st [255, 255, 255, 255, 255, 255, 255, 255] 7)) 8 .none = true := by decide
/-- Y8: the bytes after an illegal opcode are not operands. -/
theorem test_illegal : ends (step (st [100, 32, 0, 0])) 1 .illegal = true := by decide
/-- Y7. -/
theorem test_print : ends (step (st [254])) 1 .illegal = true := by decide
/-- Y9, Y10. -/
theorem test_end : ends (step State.reset) 0 .atEnd = true ∧ ends (step (st [1, 2, 3] 3)) 3 .atEnd = true := by decide

/-! ### The host, and placing an instruction -/

/-- H1, steps 4 and 5: a fault is not cleared by Append-byte. -/
theorem test_fault_survives_append :
    ends (command (.appendByte 0) ((st [255]).raiseFault .divZero)) 1 .divZero (fun t => t.len == 2) = true := by decide

/-- H5: the flag survives a warm Reset. -/
theorem test_reset_keeps_eq : ((hostReset true ((st [0]).setEq true)).eq && (hostReset true (st [0])).prog.isEmpty) = true := by
  decide

/-- U9, U14: refusals at a capacity of one byte. -/
theorem test_capacity :
    command (.appendByte 7) { st [0] with cfg := { arithOverflow := .wrap, progCapacity := 1 } } = .refused .bufferFull ∧
      command (.loadProgram [0, 0]) { st [] with cfg := { arithOverflow := .wrap, progCapacity := 1 } } =
        .refused .programTooLong := ⟨rfl, rfl⟩

/-- S10: Run on a single HALT byte takes one Execute-one. -/
theorem test_run_halt : RunsTo (st [0]) ((st [0]).advance 1 |>.stop .halt) := ⟨1, rfl⟩

/-- A placed word is the next instruction fetched: from reset, on a faulted engine, and beyond the end of the buffer. -/
theorem test_with_fetch_word :
    (State.reset.withFetchWord 32 0x0302010B).fetch = .instr (.add 1 2 3) ∧
      ((st [1, 2]).raiseFault .divZero |>.withFetchWord 8 255).fetch = .instr .nop ∧
      ((st [1] 3).withFetchWord 16 0x0418).fetch = .instr (.jumpIfEqual 4) := by decide

/-- The round trip of an encoding at the edges of its fields. -/
theorem test_encode_load : Instr.encode (.load 31 0xFF00) = some [10, 31, 255, 0] := by decide

theorem test_encode_refuses : Instr.encode .print = none ∧ Instr.encode (.illegal 1) = none := by decide

/-! ### Witnesses: every statement's hypotheses are met -/

theorem witness_InstrDecodeOfEncode : (Instr.load 31 0xFFFF).opcode ≠ .igl ∧ Instr.halt.opcode ≠ .igl := by decide

theorem witness_InstrEncodeOfDecode :
    decode [10, 31, 255, 255, 9] = .instr (.load 31 0xFFFF) [9] ∧ (Instr.load 31 0xFFFF).opcode ≠ .igl := by decide

theorem witness_DecodeConsumesTheLength :
    decode [254] = .instr .print [] ∧ decode [24, 31, 7] = .instr (.jumpIfEqual 31) [7] ∧
      decode [23, 0, 31, 255] = .instr (.greaterOrEqual 0 31 255) [] := by decide

theorem witness_FaultedEngineChangesNothing : ((st []).stop .truncated).faulted = true ∧
    ((st []).stop .overflow).faulted = true := by decide

theorem witness_EndOfBufferStops : State.reset.faulted = false ∧ State.reset.len ≤ State.reset.pc.toNat ∧
    State.reset.len = State.reset.pc.toNat ∧
    ∃ u, command (.appendByte 7) (State.reset.stop .atEnd) = .next u :=
  ⟨by decide, by decide, by decide, _, rfl⟩

theorem witness_StepRunsDecodedInstruction :
    (st [255, 24, 31] 1).prog.wf = true ∧ (st [255, 24, 31] 1).faulted = false ∧
      decode ((st [255, 24, 31] 1).prog.bytes.drop (st [255, 24, 31] 1).pc.toNat) = .instr (.jumpIfEqual 31) [] := by
  decide

theorem witness_MissingOperandByteFaults :
    (st [18, 0, 1]).AtOpcode 18 ∧
      (st [18, 0, 1]).len < (st [18, 0, 1]).pc.toNat + 1 + operandCount (decodeOpcode 18) := by decide

theorem witness_BadIndexFaults :
    (∃ b ∈ (Instr.add 0 31 32).indexBytes, 31 < b.toNat) ∧ (∃ b ∈ (Instr.jumpIfEqual 255).indexBytes, 31 < b.toNat) ∧
      ¬ ∃ b ∈ (Instr.lessThan 0 31 32).indexBytes, 31 < b.toNat := by decide

theorem witness_NextPc :
    (∃ t, (st [24, 31]).Inv ∧ (st [24, 31]).fetch = .instr (.jumpIfEqual 31) ∧
      step (st [24, 31]) = .next t ∧ t.faulted = false ∧ (st [24, 31]).eq = false) ∧
    (∃ t, (st [17, 0] 0 [(0, 2)]).Inv ∧ (st [17, 0] 0 [(0, 2)]).fetch = .instr (.jumpBackward 0) ∧
      step (st [17, 0] 0 [(0, 2)]) = .next t ∧ t.faulted = false) ∧
    (∃ t, (st [16, 31]).fetch = .instr (.jumpForward 31) ∧ step (st [16, 31]) = .next t ∧ t.faulted = false) ∧
    (∃ t, ((st [24, 0]).setEq true).fetch = .instr (.jumpIfEqual 0) ∧ step ((st [24, 0]).setEq true) = .next t ∧
      t.faulted = false) ∧
    ∃ t, (st [15, 0]).fetch = .instr (.jumpAbsolute 0) ∧ step (st [15, 0]) = .next t ∧ t.faulted = false :=
  ⟨⟨_, by decide, by decide, rfl, by decide, by decide⟩, ⟨_, by decide, by decide, rfl, by decide⟩,
    ⟨_, by decide, rfl, by decide⟩, ⟨_, by decide, rfl, by decide⟩, _, by decide, rfl, by decide⟩

/-- HALT, ILLEGAL (254) and a third instruction each complete. -/
theorem witness_SignalOfCompletion :
    (∃ t, (st [0]).fetch = .instr .halt ∧ step (st [0]) = .next t ∧ t.faulted = false) ∧
      (∃ t, (st [254]).fetch = .instr .print ∧ step (st [254]) = .next t ∧ t.faulted = false) ∧
      ∃ t, (st [255]).fetch = .instr .nop ∧ step (st [255]) = .next t ∧ t.faulted = false :=
  ⟨⟨_, by decide, rfl, by decide⟩, ⟨_, by decide, rfl, by decide⟩, ⟨_, by decide, rfl, by decide⟩⟩

/-- A register-index byte at both ends of its range. -/
theorem witness_LoadCompletes : ((0 : Byte).toNat = (0 : Fin 32).val) ∧ ((31 : Byte).toNat = (31 : Fin 32).val) := by decide

theorem witness_LoadRule :
    ((st [10, 0, 0, 0]).AtOpcode 10 ∧ (st [10, 0, 0, 0]).OperandsAre [0, 0, 0] ∧ (0 : Byte).toNat = (0 : Fin 32).val) ∧
      ((st [10, 31, 255, 255]).AtOpcode 10 ∧ (st [10, 31, 255, 255]).OperandsAre [31, 255, 255] ∧
        (31 : Byte).toNat = (31 : Fin 32).val) := by decide

/-- ADD at the largest sum that fits, and at the next one under WRAP; SUB and MUL likewise. -/
theorem witness_AddSubMulComplete :
    Fits ((st [] 0 [(0, 2147483646), (1, 1)]).sreg 0 + (st [] 0 [(0, 2147483646), (1, 1)]).sreg 1) ∧
      ¬ Fits ((st [] 0 [(0, 2147483647), (1, 1)]).sreg 0 + (st [] 0 [(0, 2147483647), (1, 1)]).sreg 1) ∧
      (st [] 0 [(0, 2147483647), (1, 1)]).cfg.arithOverflow = .wrap ∧
      Fits ((st [] 0 [(0, -2147483647), (1, 1)]).sreg 0 - (st [] 0 [(0, -2147483647), (1, 1)]).sreg 1) ∧
      Fits ((st [] 0 [(0, 46340)]).sreg 0 * (st [] 0 [(0, 46340)]).sreg 0) := by decide

theorem witness_AddRule :
    ((stF [11, 0, 1, 31] [(0, 2147483646), (1, 1)]).AtOpcode 11 ∧
      (stF [11, 0, 1, 31] [(0, 2147483646), (1, 1)]).OperandsAre [0, 1, 31] ∧
      Fits ((stF [11, 0, 1, 31] [(0, 2147483646), (1, 1)]).sreg 0 + (stF [11, 0, 1, 31] [(0, 2147483646), (1, 1)]).sreg 1)) ∧
      ((st [11, 0, 1, 31] 0 [(0, 2147483647), (1, 1)]).AtOpcode 11 ∧
        (st [11, 0, 1, 31] 0 [(0, 2147483647), (1, 1)]).OperandsAre [0, 1, 31] ∧
        ¬ Fits ((st [11, 0, 1, 31] 0 [(0, 2147483647), (1, 1)]).sreg 0 + (st [11, 0, 1, 31] 0 [(0, 2147483647), (1, 1)]).sreg 1) ∧
        (st [11, 0, 1, 31] 0 [(0, 2147483647), (1, 1)]).cfg.arithOverflow = .wrap) := by decide

theorem witness_SubRule :
    ((stF [12, 0, 1, 31] [(0, -2147483647), (1, 1)]).AtOpcode 12 ∧
      (stF [12, 0, 1, 31] [(0, -2147483647), (1, 1)]).OperandsAre [0, 1, 31] ∧
      Fits ((stF [12, 0, 1, 31] [(0, -2147483647), (1, 1)]).sreg 0 - (stF [12, 0, 1, 31] [(0, -2147483647), (1, 1)]).sreg 1)) ∧
      ((st [12, 0, 1, 31] 0 [(0, -2147483648), (1, 1)]).AtOpcode 12 ∧
        (st [12, 0, 1, 31] 0 [(0, -2147483648), (1, 1)]).OperandsAre [0, 1, 31] ∧
        ¬ Fits ((st [12, 0, 1, 31] 0 [(0, -2147483648), (1, 1)]).sreg 0 - (st [12, 0, 1, 31] 0 [(0, -2147483648), (1, 1)]).sreg 1) ∧
        (st [12, 0, 1, 31] 0 [(0, -2147483648), (1, 1)]).cfg.arithOverflow = .wrap) := by decide

theorem witness_MulRule :
    ((stF [13, 0, 1, 31] [(0, 46340), (1, 46340)]).AtOpcode 13 ∧
      (stF [13, 0, 1, 31] [(0, 46340), (1, 46340)]).OperandsAre [0, 1, 31] ∧
      Fits ((stF [13, 0, 1, 31] [(0, 46340), (1, 46340)]).sreg 0 * (stF [13, 0, 1, 31] [(0, 46340), (1, 46340)]).sreg 1)) ∧
      ((st [13, 0, 1, 31] 0 [(0, 46341), (1, 46341)]).AtOpcode 13 ∧
        (st [13, 0, 1, 31] 0 [(0, 46341), (1, 46341)]).OperandsAre [0, 1, 31] ∧
        ¬ Fits ((st [13, 0, 1, 31] 0 [(0, 46341), (1, 46341)]).sreg 0 * (st [13, 0, 1, 31] 0 [(0, 46341), (1, 46341)]).sreg 1) ∧
        (st [13, 0, 1, 31] 0 [(0, 46341), (1, 46341)]).cfg.arithOverflow = .wrap) := by decide

/-- -7 / 2 = -3 remainder -1 (R152's table). -/
theorem witness_DivCompletes :
    (st [] 0 [(0, -7), (1, 2)]).sreg 1 ≠ 0 ∧
      TruncDiv ((st [] 0 [(0, -7), (1, 2)]).sreg 0) ((st [] 0 [(0, -7), (1, 2)]).sreg 1) (-3) (-1) ∧ Fits (-3) ∧
      TruncDiv ((st [] 0 [(0, 7), (1, -2)]).sreg 0) ((st [] 0 [(0, 7), (1, -2)]).sreg 1) (-3) 1 := by decide

/-- 7 / 0 and 0 / 0. -/
theorem witness_DivByZeroFaults : (st [] 0 [(0, 7)]).sreg 1 = 0 ∧ (st []).sreg 0 = 0 := by decide

theorem witness_DivMinByMinusOne :
    ((st [] 0 [(0, -2147483648), (1, -1)]).sreg 0 = -2147483648 ∧ (st [] 0 [(0, -2147483648), (1, -1)]).sreg 1 = -1 ∧
      (st [] 0 [(0, -2147483648), (1, -1)]).cfg.arithOverflow = .wrap) ∧
      ((stF [] [(0, -2147483648), (1, -1)]).sreg 0 = -2147483648 ∧ (stF [] [(0, -2147483648), (1, -1)]).sreg 1 = -1 ∧
        (stF [] [(0, -2147483648), (1, -1)]).cfg.arithOverflow = .fault) := by decide

theorem witness_OverflowFaultsOnlyUnderFault :
    ((stF [] [(0, 2147483647), (1, 1)]).cfg.arithOverflow = .fault ∧
      ¬ Fits ((stF [] [(0, 2147483647), (1, 1)]).sreg 0 + (stF [] [(0, 2147483647), (1, 1)]).sreg 1)) ∧
      ¬ Fits ((stF [] [(0, 2147483647), (1, -1)]).sreg 0 - (stF [] [(0, 2147483647), (1, -1)]).sreg 1) ∧
      ¬ Fits ((stF [] [(0, -2147483648), (1, -1)]).sreg 0 * (stF [] [(0, -2147483648), (1, -1)]).sreg 1) ∧
      ∃ t, (st [11, 0, 0, 0]).cfg.arithOverflow = .wrap ∧ (st [11, 0, 0, 0]).faulted = false ∧
        step (st [11, 0, 0, 0]) = .next t :=
  ⟨by decide, by decide, by decide, _, by decide, by decide, rfl⟩

theorem witness_SourcesReadBeforeWrite :
    (∃ t, exec (.sub 1 2 2) (st [] 0 [(1, 10), (2, 4)]) = .next t ∧ t.faulted = false) ∧
      (∃ t, exec (.div 1 2 2) (st [] 0 [(1, 10), (2, 4)]) = .next t ∧ t.faulted = false) ∧
      (st [] 0 [(1, 10), (2, 4)]).sreg 1 = 10 ∧ (st [] 0 [(1, 10), (2, 4)]).sreg 2 = 4 ∧ (st [] 0 [(0, 3)]).sreg 0 = 3 :=
  ⟨⟨_, rfl, by decide⟩, ⟨_, rfl, by decide⟩, by decide, by decide, by decide⟩

theorem witness_ArithmeticLeavesTheFlag :
    (∃ t, (Instr.add 0 1 2).opcode ∈ [Opcode.add, .sub, .mul, .div] ∧ exec (.add 0 1 2) (st []) = .next t ∧
      (Instr.add 0 1 2).opcode ≠ .div) ∧ ∃ t, exec (.div 0 1 2) (st [] 0 [(1, 3)]) = .next t :=
  ⟨⟨_, by decide, rfl, by decide⟩, _, rfl⟩

theorem witness_UnconditionalJumpsComplete :
    0 ≤ (st []).sreg 0 ∧
      (((st [] 4294967291 [(0, 2)]).pc.toNat : Int) + 2 + (st [] 4294967291 [(0, 2)]).sreg 0 ≤ 4294967295) ∧
      ((st [] 26 [(0, 28)]).sreg 0 ≤ ((st [] 26 [(0, 28)]).pc.toNat : Int) + 2 ∧
        ((st [] 26 [(0, 28)]).pc.toNat : Int) + 2 - (st [] 26 [(0, 28)]).sreg 0 ≤ 4294967295) := by decide

theorem witness_BadJumpTargetsFault :
    ((st [] 0 [(0, -1)]).sreg 0 < 0 ∧ ((st [] 0 [(0, -1)]).setEq true).eq = true) ∧
      4294967295 < ((st [] 4294967290 [(0, 4)]).pc.toNat : Int) + 2 + (st [] 4294967290 [(0, 4)]).sreg 0 ∧
      ((st [] 26 [(0, 29)]).pc.toNat : Int) + 2 < (st [] 26 [(0, 29)]).sreg 0 := by decide

theorem witness_JumpIfEqualCompletes :
    (((st []).setEq true).eq = true ∧ 0 ≤ ((st []).setEq true).sreg 0) ∧ (st [] 0 [(0, -5)]).eq = false := by decide

theorem witness_JumpAbsoluteRule :
    ((st [15]).AtOpcode 15 ∧ (st [15]).len < (st [15]).pc.toNat + 2) ∧
      ((st [15, 32]).AtOpcode 15 ∧ (st [15, 32]).OperandsAre [32] ∧ 31 < (32 : Byte).toNat) ∧
      ((st [15, 31]).AtOpcode 15 ∧ (st [15, 31]).OperandsAre [31] ∧ 0 ≤ (st [15, 31]).sreg 31) ∧
      ((st [15, 31] 0 [(31, -1)]).AtOpcode 15 ∧ (st [15, 31] 0 [(31, -1)]).sreg 31 < 0) := by decide

theorem witness_JumpForwardRule :
    (st [16, 31] 0 [(31, 2147483647)]).AtOpcode 16 ∧ (st [16, 31] 0 [(31, 2147483647)]).OperandsAre [31] ∧
      0 ≤ (st [16, 31] 0 [(31, 2147483647)]).sreg 31 ∧
      ((st [16, 31] 0 [(31, 2147483647)]).pc.toNat : Int) + 2 + (st [16, 31] 0 [(31, 2147483647)]).sreg 31 ≤ 4294967295 := by
  decide

theorem witness_JumpBackwardRule :
    ((st [17]).AtOpcode 17 ∧ (st [17]).len < (st [17]).pc.toNat + 2) ∧
      ((st [17, 32]).AtOpcode 17 ∧ (st [17, 32]).OperandsAre [32]) ∧
      ((st [17, 0] 0 [(0, 2)]).AtOpcode 17 ∧ (st [17, 0] 0 [(0, 2)]).OperandsAre [0] ∧
        0 ≤ ((st [17, 0] 0 [(0, 2)]).pc.toNat : Int) + 2 - (st [17, 0] 0 [(0, 2)]).sreg 0) ∧
      ((st [17, 0] 0 [(0, 3)]).AtOpcode 17 ∧
        ((st [17, 0] 0 [(0, 3)]).pc.toNat : Int) + 2 - (st [17, 0] 0 [(0, 3)]).sreg 0 < 0) := by decide

theorem witness_JumpIfEqualRule :
    (((st [24, 0]).setEq true).AtOpcode 24 ∧ ((st [24, 0]).setEq true).OperandsAre [0] ∧
      0 ≤ ((st [24, 0]).setEq true).sreg 0 ∧ ((st [24, 0]).setEq true).eq = true) ∧
      ((st [24, 31] 0 [(31, -1)]).AtOpcode 24 ∧ (st [24, 31] 0 [(31, -1)]).OperandsAre [31] ∧
        (st [24, 31] 0 [(31, -1)]).eq = false) := by decide

/-- The operand hypotheses of the comparisons, for ComparisonsComplete and ComparisonsAreTrichotomous. -/
theorem witness_ComparisonsComplete : ((0 : Byte).toNat = (0 : Fin 32).val) ∧ ((31 : Byte).toNat = (31 : Fin 32).val) := by
  decide

theorem witness_ComparisonsAreTrichotomous :
    (st [] 0 [(0, -1)]).sreg 0 < (st [] 0 [(0, -1)]).sreg 31 ∧ ((31 : Byte).toNat = (31 : Fin 32).val) := by decide

/-- The pad byte is 32, which would be no register index. -/
theorem witness_ComparisonRules :
    ((st [18, 0, 31, 32]).AtOpcode 18 ∧ (st [18, 0, 31, 32]).OperandsAre [0, 31, 32]) ∧
      ((st [19, 0, 31, 32]).AtOpcode 19 ∧ (st [19, 0, 31, 32]).OperandsAre [0, 31, 32]) ∧
      ((st [20, 0, 31, 32]).AtOpcode 20 ∧ (st [20, 0, 31, 32]).OperandsAre [0, 31, 32]) ∧
      ((st [21, 0, 31, 32]).AtOpcode 21 ∧ (st [21, 0, 31, 32]).OperandsAre [0, 31, 32]) ∧
      ((st [22, 0, 31, 32]).AtOpcode 22 ∧ (st [22, 0, 31, 32]).OperandsAre [0, 31, 32]) ∧
      ((st [23, 0, 31, 32]).AtOpcode 23 ∧ (st [23, 0, 31, 32]).OperandsAre [0, 31, 32]) := by decide

theorem witness_ComparisonOverwritesFlag :
    (∃ t, (Instr.lessThan 0 31 32).opcode ∈
      [Opcode.equal, .notEqual, .lessThan, .greaterThan, .lessOrEqual, .greaterOrEqual] ∧
      exec (.lessThan 0 31 32) ((st []).setEq true) = .next t ∧ t.faulted = false) ∧
    (∃ t, 0 ≤ (st [] 0 [(0, -1)]).sreg 31 ∧ exec (.lessThan 0 31 32) (st [] 0 [(0, -1)]) = .next t ∧
      (st [] 0 [(0, -1)]).sreg 0 < (st [] 0 [(0, -1)]).sreg 31) ∧
    ∃ t, exec (.lessThan 31 0 32) (st [] 0 [(0, -1)]) = .next t ∧
      ¬ (st [] 0 [(0, -1)]).sreg 31 < (st [] 0 [(0, -1)]).sreg 0 :=
  ⟨⟨_, by decide, rfl, by decide⟩, ⟨_, by decide, rfl, by decide⟩, _, rfl, by decide⟩

theorem witness_HaltRule : (st [0]).AtOpcode 0 := by decide

theorem witness_NopRule : (st [255, 255] 1).AtOpcode 255 := by decide

theorem witness_IllegalAndPrintRule :
    (st [254]).AtOpcode 254 ∧ (st [9]).AtOpcode 9 ∧ (st [25, 32]).AtOpcode 25 ∧
      ¬ ((9 : Byte).toNat = 0 ∨ (10 ≤ (9 : Byte).toNat ∧ (9 : Byte).toNat ≤ 24) ∨ (9 : Byte).toNat = 255) ∧
      ¬ ((254 : Byte).toNat = 0 ∨ (10 ≤ (254 : Byte).toNat ∧ (254 : Byte).toNat ≤ 24) ∨ (254 : Byte).toNat = 255) := by
  decide

/-- A state that is not reset's and meets the invariant: a full buffer, stopped at its end. -/
theorem witness_StepKeepsTheInvariant :
    State.Inv { st [10, 0, 0, 7] with pc := 4, runState := .stopped, stopCause := .atEnd,
                                      cfg := { arithOverflow := .fault, progCapacity := 4 } } := by decide

theorem witness_HostOperationsKeepTheInvariant :
    State.reset.Inv ∧ ∃ t, command (.appendByte 255) State.reset = .next t := ⟨by decide, _, rfl⟩

theorem witness_ProgramIsReadOnly : ∃ t, step (st [11, 0, 0, 0]) = .next t := ⟨_, rfl⟩

theorem witness_OnlyDestinationsAreWritten :
    ∃ t, step (st [10, 31, 0, 7]) = .next t ∧ ∃ j, t.reg j ≠ (st [10, 31, 0, 7]).reg j := ⟨_, rfl, 31, by decide⟩

theorem witness_OnlyComparisonsWriteEq : ∃ t, step (st [18, 0, 0, 9]) = .next t ∧ t.eq ≠ (st [18, 0, 0, 9]).eq :=
  ⟨_, rfl, by decide⟩

theorem witness_RemIsWrittenByDivAndNeverRead :
    ∃ t, step (st [14, 0, 1, 2] 0 [(0, 7), (1, 2)]) = .next t ∧ t.rem ≠ (st [14, 0, 1, 2] 0 [(0, 7), (1, 2)]).rem ∧
      (st [14, 0, 1, 2] 0 [(0, 7), (1, 2)]).fetch = .instr (.div 0 1 2) ∧ t.faulted = false :=
  ⟨_, rfl, by decide, by decide, by decide⟩

theorem witness_FaultsArePrecise :
    ∃ t, (st [14, 0, 1, 2]).faulted = false ∧ step (st [14, 0, 1, 2]) = .next t ∧ t.faulted = true :=
  ⟨_, by decide, rfl, by decide⟩

/-- Every cause is left by some step. -/
theorem witness_CausesAndWhoRaisesThem :
    ends (step (st [0])) 1 .halt = true ∧ ends (step (st [254])) 1 .illegal = true ∧ ends (step (st [])) 0 .atEnd = true ∧
      ends (step (st [24])) 1 .truncated = true ∧ ends (step (st [24, 32])) 1 .regIndex = true ∧
      ends (step (st [14, 0, 1, 2])) 1 .divZero = true ∧ ends (step (st [15, 0] 0 [(0, -1)])) 1 .badJump = true ∧
      ends (step (stF [13, 0, 0, 1] [(0, 65535)])) 1 .overflow = true := by decide

theorem witness_StopsResumeAndFaultsDoNot :
    (st [0, 255]).Inv ∧ (st [0, 255]).faulted = false ∧
      (∃ t, step (st [0, 255]) = .next t ∧ t.stopCause = .halt ∧
        decode ((st [0, 255]).prog.bytes.drop ((st [0, 255]).pc.toNat + 1)) = .instr .nop []) ∧
      (∃ t, step (st []) = .next t ∧ t.stopCause = .atEnd) ∧ ∃ t, step (st [24]) = .next t ∧ t.faulted = true :=
  ⟨by decide, by decide, ⟨_, rfl, by decide, by decide⟩, ⟨_, rfl, by decide⟩, _, rfl, by decide⟩

theorem witness_AppendByteExtendsTheBuffer :
    (State.reset.prog.wf = true ∧ State.reset.len < State.reset.cfg.progCapacity.toNat) ∧
      State.len { st [0] with cfg := { arithOverflow := .wrap, progCapacity := 2 } } + 1 = 2 ∧
      (State.cfg { st [0, 0] with cfg := { arithOverflow := .wrap, progCapacity := 2 } }).progCapacity.toNat ≤
        State.len { st [0, 0] with cfg := { arithOverflow := .wrap, progCapacity := 2 } } := by decide

theorem witness_LoadProgramReplacesTheBuffer :
    ([0, 1] : List Byte).length ≤ (2 : BitVec 32).toNat ∧ (2 : BitVec 32).toNat < ([0, 1, 2] : List Byte).length ∧
      (State.cfg { st [] with cfg := { arithOverflow := .wrap, progCapacity := 2 } }).progCapacity = 2 := by decide

theorem witness_RunIsDeterministic : RunsTo (st []) ((st []).stop .atEnd) ∧
    run 1 (st []) = .returned ((st []).stop .atEnd) := ⟨⟨1, rfl⟩, rfl⟩

end Sys2Proof.Tests
end

section
/-! PROOFS. What one Execute-one can do, said once: the effect of every instruction on the state (`ExecEffect`), and the step by
what the fetch found. The statements about the state (spec/10_state.md) are read off these. -/

namespace Sys2Proof.Machine

open Sys2Proof.Claims

/-! ### Instruction forms that the shared laws leave out -/

/-- An instruction that ends with Continue completes (R108). -/
theorem State.resume_continues (s : State) : s.resume.Continues := ⟨rfl, rfl, rfl⟩

/-- Everything DIV can do, in the order of its checks (R143, R153 to R156, R226). -/
theorem execDiv_cases (s : State) (rs1 rs2 rd : Byte) :
    ((31 < rs1.toNat ∨ 31 < rs2.toNat ∨ 31 < rd.toNat) ∧ execDiv rs1 rs2 rd s = s.raised .regIndex) ∨
      ∃ a b d : Fin 32, (rs1.toNat = a.val ∧ rs2.toNat = b.val ∧ rd.toNat = d.val) ∧
        ((s.sreg b = 0 ∧ execDiv rs1 rs2 rd s = s.raised .divZero) ∨
          (s.sreg b ≠ 0 ∧ fits32 (tdiv (s.sreg a) (s.sreg b)) = false ∧ s.cfg.arithOverflow = .fault ∧
            execDiv rs1 rs2 rd s = s.raised .overflow) ∨
          (s.sreg b ≠ 0 ∧ (fits32 (tdiv (s.sreg a) (s.sreg b)) = true ∨ s.cfg.arithOverflow = .wrap) ∧
            execDiv rs1 rs2 rd s =
              .next (((s.setReg d (bits32 (tdiv (s.sreg a) (s.sreg b)))).setRem
                (bits32 (trem (s.sreg a) (s.sreg b)))).advance 4).resume)) := by
  unfold execDiv
  rcases withReg_cases rs1 s _ with ⟨a, ha, h⟩ | ⟨ha, h⟩ <;> rw [h]
  · rcases withReg_cases rs2 s _ with ⟨b, hb, h⟩ | ⟨hb, h⟩ <;> rw [h]
    · rcases withReg_cases rd s _ with ⟨d, hd, h⟩ | ⟨hd, h⟩ <;> rw [h]
      · refine .inr ⟨a, b, d, ⟨ha, hb, hd⟩, ?_⟩
        by_cases hz : s.sreg b = 0
        · exact .inl ⟨hz, if_pos hz⟩
        · rw [if_neg hz]
          rcases s.narrow_cases (tdiv (s.sreg a) (s.sreg b)) _ with ⟨hv, h⟩ | ⟨hv, hm, h⟩
          · exact .inr (.inr ⟨hz, hv, h⟩)
          · exact .inr (.inl ⟨hz, hv, hm, h⟩)
      · exact .inl ⟨.inr (.inr hd), rfl⟩
    · exact .inl ⟨.inr (.inl hb), rfl⟩
  · exact .inl ⟨.inl ha, rfl⟩

/-- JUMP-IF-EQUAL taken is JUMP-ABSOLUTE (R163). -/
theorem execJumpIfEqual_taken {s : State} (h : s.eq = true) (ra : Byte) :
    execJumpIfEqual ra s = execJumpAbsolute ra s := by
  simp only [execJumpIfEqual, execJumpAbsolute, h, if_true]

/-- JUMP-IF-EQUAL not taken checks its index and goes on (R105, R163). -/
theorem execJumpIfEqual_not_taken {s : State} (h : s.eq = false) (ra : Byte) :
    execJumpIfEqual ra s = withReg ra s fun _ => s.finish 2 := by
  simp only [execJumpIfEqual, h, Bool.false_eq_true, if_false]

/-! ### The effect of an instruction -/

/-- What `i`, executed in `s`, may leave: a fault, a stop, or a completion that writes the pc and at most the one piece of data
its format names (R22, R30, R32, R108). -/
inductive ExecEffect (i : Instr) (s : State) : State → Prop
  | fault {f : StopCause} (hf : f.isFault = true) : ExecEffect i s (s.raiseFault f)
  | stop {c : StopCause} (hc : i.opcode = .halt ∧ c = .halt ∨ i.opcode = .igl ∧ c = .illegal) :
      ExecEffect i s ((s.advance 1).stop c)
  | goto (p : Word) (hi : i.opcode ∈ [Opcode.nop, .jumpAbsolute, .jumpForward, .jumpBackward, .jumpIfEqual]) :
      ExecEffect i s (s.setPc p).resume
  | write {rd : Byte} {d : Fin 32} (v : Word) (hi : HasDestination i rd) (hn : i.opcode ≠ .div) (hd : rd.toNat = d.val) :
      ExecEffect i s ((s.setReg d v).advance 4).resume
  | divide {rs1 rs2 rd : Byte} {d : Fin 32} (q r : Word) (hi : i = .div rs1 rs2 rd) (hd : rd.toNat = d.val) :
      ExecEffect i s (((s.setReg d q).setRem r).advance 4).resume
  | compare (b : Bool)
      (hi : i.opcode ∈ [Opcode.equal, .notEqual, .lessThan, .greaterThan, .lessOrEqual, .greaterOrEqual]) :
      ExecEffect i s ((s.setEq b).advance 4).resume

/-- The outcome `o` of `i` in `s` is a next state with an effect that `i` may have. -/
def HasEffect (i : Instr) (s : State) (o : Host.Outcome State Fault Refusal) : Prop :=
  ∃ t, o = .next t ∧ ExecEffect i s t

section
variable {i : Instr} {s : State}

theorem hasEffect_raised {f : StopCause} (hf : f.isFault = true) : HasEffect i s (s.raised f) :=
  ⟨_, rfl, .fault hf⟩

theorem hasEffect_withReg {k : Fin 32 → Host.Outcome State Fault Refusal} (b : Byte)
    (hk : ∀ r : Fin 32, b.toNat = r.val → HasEffect i s (k r)) : HasEffect i s (withReg b s k) := by
  rcases withReg_cases b s k with ⟨r, hr, h⟩ | ⟨-, h⟩ <;> rw [h]
  · exact hk r hr
  · exact hasEffect_raised rfl

theorem hasEffect_arith (op : Int → Int → Int) {rs1 rs2 rd : Byte} (hi : HasDestination i rd) (hn : i.opcode ≠ .div) :
    HasEffect i s (s.arith op rs1 rs2 rd) := by
  rcases s.arith_cases op rs1 rs2 rd with ⟨-, h⟩ | ⟨a, b, d, ⟨-, -, hd⟩, ⟨-, h⟩ | ⟨-, -, h⟩⟩ <;> rw [h]
  · exact hasEffect_raised rfl
  · exact ⟨_, rfl, .write _ hi hn hd⟩
  · exact hasEffect_raised rfl

theorem hasEffect_div (rs1 rs2 rd : Byte) : HasEffect (.div rs1 rs2 rd) s (execDiv rs1 rs2 rd s) := by
  rcases execDiv_cases s rs1 rs2 rd with
    ⟨-, h⟩ | ⟨a, b, d, ⟨-, -, hd⟩, ⟨-, h⟩ | ⟨-, -, -, h⟩ | ⟨-, -, h⟩⟩ <;> rw [h]
  · exact hasEffect_raised rfl
  · exact hasEffect_raised rfl
  · exact hasEffect_raised rfl
  · exact ⟨_, rfl, .divide _ _ rfl hd⟩

theorem hasEffect_compare (r : Relation) (rs1 rs2 : Byte)
    (hi : i.opcode ∈ [Opcode.equal, .notEqual, .lessThan, .greaterThan, .lessOrEqual, .greaterOrEqual]) :
    HasEffect i s (s.compare r rs1 rs2) := by
  rcases s.compare_cases r rs1 rs2 with ⟨-, h⟩ | ⟨a, b, -, h⟩ <;> rw [h]
  · exact hasEffect_raised rfl
  · exact ⟨_, rfl, .compare _ hi⟩

theorem hasEffect_jump (ra : Byte) (f : Int → Int)
    (hi : i.opcode ∈ [Opcode.nop, .jumpAbsolute, .jumpForward, .jumpBackward, .jumpIfEqual]) :
    HasEffect i s (withReg ra s fun r => s.withJumpValue r fun v => s.jumpTo (f v)) := by
  rcases s.jump_cases ra f with ⟨-, h⟩ | ⟨r, -, ⟨-, h⟩ | ⟨-, h⟩⟩ <;> rw [h]
  · exact hasEffect_raised rfl
  · exact ⟨_, rfl, .goto _ hi⟩
  · exact hasEffect_raised rfl

theorem hasEffect_jumpIfEqual (ra : Byte) : HasEffect (.jumpIfEqual ra) s (execJumpIfEqual ra s) := by
  cases h : s.eq
  · rw [execJumpIfEqual_not_taken h]
    exact hasEffect_withReg ra fun _ _ => ⟨_, rfl, .goto _ (by simp [Instr.opcode])⟩
  · rw [execJumpIfEqual_taken h]
    exact hasEffect_jump ra (fun v => v) (by simp [Instr.opcode])

end

/-- Every instruction answers a next state, and changes no more than its effect says (R210, R231). -/
theorem exec_hasEffect (i : Instr) (s : State) : HasEffect i s (exec i s) := by
  cases i with
  | halt => exact ⟨_, rfl, .stop (.inl ⟨rfl, rfl⟩)⟩
  | print => exact ⟨_, rfl, .stop (.inr ⟨rfl, rfl⟩)⟩
  | illegal byte => exact ⟨_, rfl, .stop (.inr ⟨rfl, rfl⟩)⟩
  | nop => exact ⟨_, rfl, .goto _ (by decide)⟩
  | load rd imm =>
    exact hasEffect_withReg rd fun _ hd => ⟨_, rfl, .write _ (.inl ⟨imm, rfl⟩) (by simp [Instr.opcode]) hd⟩
  | add rs1 rs2 rd => exact hasEffect_arith _ (.inr ⟨rs1, rs2, .inl rfl⟩) (by simp [Instr.opcode])
  | sub rs1 rs2 rd => exact hasEffect_arith _ (.inr ⟨rs1, rs2, .inr (.inl rfl)⟩) (by simp [Instr.opcode])
  | mul rs1 rs2 rd => exact hasEffect_arith _ (.inr ⟨rs1, rs2, .inr (.inr (.inl rfl))⟩) (by simp [Instr.opcode])
  | div rs1 rs2 rd => exact hasEffect_div rs1 rs2 rd
  | jumpAbsolute | jumpForward | jumpBackward => exact hasEffect_jump _ _ (by simp [Instr.opcode])
  | jumpIfEqual ra => exact hasEffect_jumpIfEqual ra
  | equal | notEqual | lessThan | greaterThan | lessOrEqual | greaterOrEqual =>
    exact hasEffect_compare _ _ _ (by simp [Instr.opcode])

/-- The effect of an instruction whose next state is already named. -/
theorem execEffect_of_next {i : Instr} {s t : State} (h : exec i s = .next t) : ExecEffect i s t := by
  obtain ⟨t', ht, he⟩ := exec_hasEffect i s
  rw [h] at ht
  cases ht
  exact he

/-! ### What every effect keeps -/

section
variable {i : Instr} {s t : State}

/-- No instruction writes the program buffer or the parameters (R57, R240). -/
theorem ExecEffect.prog_cfg (h : ExecEffect i s t) : t.prog = s.prog ∧ t.cfg = s.cfg := by
  cases h <;> exact ⟨rfl, rfl⟩

/-- Every instruction leaves the status registers in agreement (R37). -/
theorem ExecEffect.statusAgrees (h : ExecEffect i s t) : t.StatusAgrees := by
  cases h with
  | fault hf => exact State.stop_statusAgrees _ (by rintro rfl; simp [StopCause.isFault] at hf)
  | stop hc => exact State.stop_statusAgrees _ (by rcases hc with ⟨-, rfl⟩ | ⟨-, rfl⟩ <;> simp)
  | goto | write | divide | compare => exact State.resume_statusAgrees _

/-- An instruction that changes a general register completed and changed its destination alone (R22). -/
theorem ExecEffect.changes_reg (h : ExecEffect i s t) (hne : ∃ j, t.reg j ≠ s.reg j) :
    ∃ (rd : Byte) (d : Fin 32), HasDestination i rd ∧ regIndex rd = some d ∧ s.SameRegsBut t d ∧ t.Continues := by
  obtain ⟨j, hj⟩ := hne
  cases h with
  | fault | stop | goto | compare => exact absurd rfl hj
  | write v hi hn hd =>
    exact ⟨_, _, hi, regIndex_eq_some.mpr hd, fun k hk => s.reg_setReg_other v hk.symm, State.resume_continues _⟩
  | @divide rs1 rs2 _ _ q r hi hd =>
    exact ⟨_, _, .inr ⟨rs1, rs2, .inr (.inr (.inr hi))⟩, regIndex_eq_some.mpr hd,
      fun k hk => s.reg_setReg_other q hk.symm, State.resume_continues _⟩

/-- An instruction that changes `eq` is a comparison that completed (R30, R31). -/
theorem ExecEffect.changes_eq (h : ExecEffect i s t) (hne : t.eq ≠ s.eq) :
    t.Continues ∧
      i.opcode ∈ [Opcode.equal, .notEqual, .lessThan, .greaterThan, .lessOrEqual, .greaterOrEqual] := by
  cases h with
  | fault | stop | goto | write | divide => exact absurd rfl hne
  | compare b hi => exact ⟨State.resume_continues _, hi⟩

/-- An instruction that changes `rem` is a DIV that completed (R32). -/
theorem ExecEffect.changes_rem (h : ExecEffect i s t) (hne : t.rem ≠ s.rem) :
    (∃ rs1 rs2 rd, i = .div rs1 rs2 rd) ∧ t.Continues := by
  cases h with
  | fault | stop | goto | write | compare => exact absurd rfl hne
  | divide q r hi hd => exact ⟨⟨_, _, _, hi⟩, State.resume_continues _⟩

end

/-! ### The step by what the fetch found -/

section
variable {s : State}

theorem step_of_faulted (h : s.fetch = .faulted) : step s = .next s := by rw [step, h]

theorem step_of_atEnd (h : s.fetch = .atEnd) : step s = .next (s.stop .atEnd) := by rw [step, h]

theorem step_of_truncated (h : s.fetch = .truncated) : step s = s.raised .truncated := by rw [step, h]

theorem step_of_noByte (h : s.fetch = .noByte) : step s = .fault .noProgramByte := by rw [step, h]

theorem step_of_instr {i : Instr} (h : s.fetch = .instr i) : step s = exec i s := by rw [step, h]

/-- A step reaches an instruction, or ends before one and changes no data (R101 to R104). -/
theorem step_next_cases {t : State} (h : step s = .next t) :
    s.SameData t ∨ ∃ i, s.fetch = .instr i ∧ ExecEffect i s t := by
  cases hf : s.fetch with
  | faulted => rw [step_of_faulted hf] at h; cases h; exact .inl ⟨fun _ => rfl, rfl, rfl⟩
  | atEnd => rw [step_of_atEnd hf] at h; cases h; exact .inl ⟨fun _ => rfl, rfl, rfl⟩
  | truncated => rw [step_of_truncated hf] at h; cases h; exact .inl ⟨fun _ => rfl, rfl, rfl⟩
  | noByte => rw [step_of_noByte hf] at h; cases h
  | instr i => rw [step_of_instr hf] at h; exact .inr ⟨i, rfl, execEffect_of_next h⟩

end

end Sys2Proof.Machine
end

section
/-! PROOFS. The invariant: kept by the step and by every host operation (spec/10_state.md R37, R40, R45). -/

namespace Sys2Proof.Machine

/-- The invariant speaks of the buffer, the parameters and the agreement of the status registers alone. -/
theorem State.inv_of_same_prog {s t : State} (hs : s.Inv) (hp : t.prog = s.prog) (hc : t.cfg = s.cfg)
    (hst : t.StatusAgrees) : t.Inv := by
  obtain ⟨hw, hl, -⟩ := hs
  refine ⟨hp ▸ hw, ?_, hst⟩
  rwa [State.len, hp, hc]

theorem State.inv_initial (c : Config) : (State.initial c).Inv :=
  ⟨Memory.wf_nil, Nat.zero_le _, Iff.intro (fun _ => rfl) fun _ => rfl⟩

/-- A good state steps to a good state. -/
theorem step_keeps_inv (s : State) (hs : s.Inv) : ∃ t, step s = .next t ∧ t.Inv := by
  cases hf : s.fetch with
  | faulted => exact ⟨s, step_of_faulted hf, hs⟩
  | atEnd => exact ⟨_, step_of_atEnd hf, State.inv_of_same_prog hs rfl rfl (State.stop_statusAgrees _ (by decide))⟩
  | truncated =>
    exact ⟨_, step_of_truncated hf, State.inv_of_same_prog hs rfl rfl (State.stop_statusAgrees _ (by decide))⟩
  | noByte => exact absurd hf (s.fetch_ne_noByte hs.1)
  | instr i =>
    obtain ⟨t, ht, he⟩ := exec_hasEffect i s
    obtain ⟨hp, hc⟩ := he.prog_cfg
    exact ⟨t, (step_of_instr hf).trans ht, State.inv_of_same_prog hs hp hc he.statusAgrees⟩

/-- An Append-byte that is not refused had room, and wrote the buffer alone (R121). -/
theorem hostAppendByte_next {b : Byte} {s t : State} (h : hostAppendByte b s = .next t) :
    s.len < s.cfg.progCapacity.toNat ∧ t = { s with prog := s.prog.push b } := by
  unfold hostAppendByte at h
  split at h
  · cases h; exact ⟨‹_›, rfl⟩
  · cases h

/-- A Load-program that is not refused had room, and wrote the buffer alone (R122). -/
theorem hostLoadProgram_next {bs : List Byte} {s t : State} (h : hostLoadProgram bs s = .next t) :
    bs.length ≤ s.cfg.progCapacity.toNat ∧ t = { s with prog := Memory.ofBytes bs } := by
  unfold hostLoadProgram at h
  split at h
  · cases h; exact ⟨‹_›, rfl⟩
  · cases h

theorem State.inv_hostReset {s : State} (hs : s.Inv) (clear : Bool) : (hostReset clear s).Inv := by
  obtain ⟨hw, hl, -⟩ := hs
  refine ⟨wf_hostReset clear s hw, ?_, Iff.intro (fun _ => rfl) fun _ => rfl⟩
  cases clear
  · exact hl
  · exact Nat.zero_le _

/-- Every host operation that answers a next state keeps the invariant. -/
theorem command_keeps_inv (c : Command) {s t : State} (hs : s.Inv) (h : command c s = .next t) : t.Inv := by
  cases c with
  | initEngine => cases h; exact State.inv_initial _
  | construct => cases h; exact State.inv_initial _
  | appendByte b =>
    obtain ⟨hroom, rfl⟩ := hostAppendByte_next h
    obtain ⟨hw, -, hst⟩ := hs
    exact ⟨Memory.wf_push _ b hw, (s.prog.length_push b).trans_le hroom, hst⟩
  | loadProgram bs =>
    obtain ⟨hroom, rfl⟩ := hostLoadProgram_next h
    obtain ⟨-, -, hst⟩ := hs
    exact ⟨Memory.wf_ofBytes bs, (Memory.length_ofBytes bs).trans_le hroom, hst⟩
  | reset clear => cases h; exact State.inv_hostReset hs clear
  | executeOne =>
    obtain ⟨t', ht, hinv⟩ := step_keeps_inv s hs
    cases ht.symm.trans h
    exact hinv

/-- Settles O43. -/
theorem stepKeepsTheInvariant : Obligations.StepKeepsTheInvariant := step_keeps_inv

/-- Settles O44. -/
theorem hostOperationsKeepTheInvariant : Obligations.HostOperationsKeepTheInvariant :=
  fun c _ _ hs h => command_keeps_inv c hs h

/-- Settles O45: `State.reset` is the initial state for the standard parameters. -/
theorem invariantAtReset : Obligations.InvariantAtReset :=
  ⟨State.inv_initial, State.inv_initial Config.standard⟩

end Sys2Proof.Machine
end

section
/-! PROOFS. The register-index check (R105, R222) and who writes the general registers and `eq` (R22, R30). -/

namespace Sys2Proof.Machine

theorem State.arith_badIndex (s : State) (op : Int → Int → Int) {rs1 rs2 rd : Byte}
    (h : 31 < rs1.toNat ∨ 31 < rs2.toNat ∨ 31 < rd.toNat) : s.arith op rs1 rs2 rd = s.raised .regIndex := by
  rcases s.arith_cases op rs1 rs2 rd with ⟨-, h'⟩ | ⟨a, b, d, hidx, -⟩
  · exact h'
  · omega

theorem execDiv_badIndex (s : State) {rs1 rs2 rd : Byte}
    (h : 31 < rs1.toNat ∨ 31 < rs2.toNat ∨ 31 < rd.toNat) : execDiv rs1 rs2 rd s = s.raised .regIndex := by
  rcases execDiv_cases s rs1 rs2 rd with ⟨-, h'⟩ | ⟨a, b, d, hidx, -⟩
  · exact h'
  · omega

theorem State.compare_badIndex (s : State) (r : Relation) {rs1 rs2 : Byte} (h : 31 < rs1.toNat ∨ 31 < rs2.toNat) :
    s.compare r rs1 rs2 = s.raised .regIndex := by
  rcases s.compare_cases r rs1 rs2 with ⟨-, h'⟩ | ⟨a, b, hidx, -⟩
  · exact h'
  · omega

/-- An index byte above 31, in whatever place, is all that an instruction with one comes to (R105, R222). -/
theorem exec_badIndex (i : Instr) (s : State) (h : ∃ b ∈ i.indexBytes, 31 < b.toNat) :
    exec i s = s.raised .regIndex := by
  cases i with
  | halt | print | nop | illegal =>
    obtain ⟨b, hb, -⟩ := h
    exact absurd hb List.not_mem_nil
  | load rd =>
    have h : ∃ b ∈ [rd], 31 < b.toNat := h
    exact withReg_invalid (by simpa using h)
  | add rs1 rs2 rd | sub rs1 rs2 rd | mul rs1 rs2 rd =>
    have h : ∃ b ∈ [rs1, rs2, rd], 31 < b.toNat := h
    exact s.arith_badIndex _ (by simpa using h)
  | div rs1 rs2 rd =>
    have h : ∃ b ∈ [rs1, rs2, rd], 31 < b.toNat := h
    exact execDiv_badIndex s (by simpa using h)
  | jumpAbsolute ra | jumpForward ra | jumpBackward ra | jumpIfEqual ra =>
    have h : ∃ b ∈ [ra], 31 < b.toNat := h
    exact withReg_invalid (by simpa using h)
  | equal rs1 rs2 | notEqual rs1 rs2 | lessThan rs1 rs2 | greaterThan rs1 rs2 | lessOrEqual rs1 rs2
  | greaterOrEqual rs1 rs2 =>
    have h : ∃ b ∈ [rs1, rs2], 31 < b.toNat := h
    exact s.compare_badIndex _ (by simpa using h)

/-- Settles O12. -/
theorem badIndexFaults : Obligations.BadIndexFaults := by
  refine ⟨fun _ _ => regIndex_eq_some, fun i s h => ?_⟩
  rw [exec_badIndex i s h]
  exact s.raised_takesFault (by decide)

/-- Settles O47. -/
theorem onlyDestinationsAreWritten : Obligations.OnlyDestinationsAreWritten := by
  intro s t h hne
  rcases step_next_cases h with ⟨hreg, -, -⟩ | ⟨i, hf, he⟩
  · obtain ⟨j, hj⟩ := hne
    exact absurd (hreg j) hj
  · obtain ⟨rd, d, hi, hd, hother, hcont⟩ := he.changes_reg hne
    exact ⟨i, rd, d, hf, hi, hd, hother, hcont⟩

/-- Settles O48. -/
theorem onlyComparisonsWriteEq : Obligations.OnlyComparisonsWriteEq := by
  intro s t h hne
  rcases step_next_cases h with ⟨-, -, heq⟩ | ⟨i, hf, he⟩
  · exact absurd heq hne
  · exact ⟨i, hf, he.changes_eq hne⟩

end Sys2Proof.Machine
end

section
/-! PROOFS. `rem` (R32): DIV alone writes it, with the remainder of truncating division, and a step from another `rem` differs
in `rem` alone. -/

namespace Sys2Proof.Machine

open Sys2Proof.Claims

/-! ### The remainder -/

/-- The remainder is never on the other side of zero from the dividend (R152). -/
theorem trem_nonneg {a : Int} (h : 0 ≤ a) (b : Int) : 0 ≤ trem a b := by
  rw [trem_eq_tmod]
  exact Int.tmod_nonneg b h

theorem trem_neg (a b : Int) : trem (-a) b = -trem a b := by
  rw [trem_eq_tmod, trem_eq_tmod, Int.neg_tmod]

theorem abs_trem_lt (a : Int) {b : Int} (h : b ≠ 0) : |trem a b| < |b| := by
  rw [trem_eq_tmod, Int.abs_eq_natAbs, Int.abs_eq_natAbs, Int.natAbs_tmod]
  exact_mod_cast Nat.mod_lt _ (Int.natAbs_pos.mpr h)

/-- `tdiv` and `trem` are the quotient and remainder of R152. -/
theorem truncDiv_tdiv_trem (a : Int) {b : Int} (h : b ≠ 0) : TruncDiv a b (tdiv a b) (trem a b) := by
  refine ⟨by unfold trem; omega, abs_trem_lt a h, fun hr => ?_, fun hr => ?_⟩
  · by_contra ha
    have := trem_nonneg (a := -a) (by omega) b
    rw [trem_neg] at this
    omega
  · by_contra ha
    have := trem_nonneg (a := a) (by omega) b
    omega

theorem State.sreg_bounds (s : State) (i : Fin 32) : -2147483648 ≤ s.sreg i ∧ s.sreg i ≤ 2147483647 := by
  have h1 := (s.reg i).le_toInt
  have h2 := (s.reg i).toInt_lt
  simp only [State.sreg]
  omega

/-- The remainder by a register's value fits a register, so its pattern is read back as itself (R152, decision D6). -/
theorem State.toInt_bits32_trem (s : State) (a b : Fin 32) (h : s.sreg b ≠ 0) :
    (bits32 (trem (s.sreg a) (s.sreg b))).toInt = trem (s.sreg a) (s.sreg b) := by
  apply toInt_bits32
  have hlt := abs_trem_lt (s.sreg a) h
  have hb := s.sreg_bounds b
  simp only [fits32, decide_eq_true_eq]
  rw [abs_lt] at hlt
  have : |s.sreg b| ≤ 2147483648 := abs_le.mpr ⟨by omega, by omega⟩
  omega

/-- A DIV that does not fault leaves the remainder of its division in `rem` (R143, R152). -/
theorem execDiv_rem {s t : State} {rs1 rs2 rd : Byte} {a b : Fin 32} (h : execDiv rs1 rs2 rd s = .next t)
    (ht : t.faulted = false) (ha : rs1.toNat = a.val) (hb : rs2.toNat = b.val) :
    ∃ q r : Int, TruncDiv (s.sreg a) (s.sreg b) q r ∧ t.rem.toInt = r := by
  rcases execDiv_cases s rs1 rs2 rd with
    ⟨-, h'⟩ | ⟨a', b', d, ⟨ha', hb', -⟩, ⟨-, h'⟩ | ⟨-, -, -, h'⟩ | ⟨hz, -, h'⟩⟩ <;> cases h'.symm.trans h
  · exact nomatch ht
  · exact nomatch ht
  · exact nomatch ht
  · obtain rfl : a' = a := Fin.ext (ha'.symm.trans ha)
    obtain rfl : b' = b := Fin.ext (hb'.symm.trans hb)
    exact ⟨_, _, truncDiv_tdiv_trem _ hz, s.toInt_bits32_trem a' b' hz⟩

/-! ### No instruction reads `rem` -/

/-- The outcome with its next state, where it has one, changed by `f`. -/
def mapNext (f : State → State) : Host.Outcome State Fault Refusal → Host.Outcome State Fault Refusal
  | .next t => .next (f t)
  | .fault r => .fault r
  | .refused r => .refused r

theorem Instr.opcode_eq_div {i : Instr} : i.opcode = .div ↔ ∃ rs1 rs2 rd, i = .div rs1 rs2 rd := by
  cases i <;> simp [Instr.opcode]

/-- What becomes of the state `t` that `i` leaves when it starts from the remainder `v` instead: a DIV that completed has
overwritten it. -/
def remAfter (i : Instr) (v : Word) (t : State) : State :=
  if i.opcode = .div ∧ t.faulted = false then t else t.setRem v

theorem remAfter_of_ne_div {i : Instr} (h : i.opcode ≠ .div) (v : Word) : remAfter i v = fun t => t.setRem v :=
  funext fun _ => if_neg fun hc => h hc.1

section
variable {f : State → State} {s s' : State}

theorem withReg_mapNext {k k' : Fin 32 → Host.Outcome State Fault Refusal} (b : Byte)
    (hr : s'.raised .regIndex = mapNext f (s.raised .regIndex)) (hk : ∀ i, k' i = mapNext f (k i)) :
    withReg b s' k' = mapNext f (withReg b s k) := by
  rcases withReg_cases b s k with ⟨i, hb, h⟩ | ⟨hb, h⟩ <;> rw [h]
  · rw [withReg_valid hb, hk]
  · rw [withReg_invalid hb, hr]

theorem ite_mapNext {c : Prop} [Decidable c] {o₁ o₂ o₁' o₂' : Host.Outcome State Fault Refusal}
    (h₁ : o₁' = mapNext f o₁) (h₂ : o₂' = mapNext f o₂) :
    (if c then o₁' else o₂') = mapNext f (if c then o₁ else o₂) := by
  split_ifs
  · exact h₁
  · exact h₂

theorem narrow_mapNext {k k' : Word → Host.Outcome State Fault Refusal} (v : Int) (hc : s'.cfg = s.cfg)
    (hr : s'.raised .overflow = mapNext f (s.raised .overflow)) (hk : ∀ w, k' w = mapNext f (k w)) :
    s'.narrow v k' = mapNext f (s.narrow v k) := by
  simp only [State.narrow, hc]
  exact ite_mapNext hr (hk _)

end

section
variable (s : State) (v : Word)

theorem State.arith_setRem (op : Int → Int → Int) (rs1 rs2 rd : Byte) :
    (s.setRem v).arith op rs1 rs2 rd = mapNext (fun t => t.setRem v) (s.arith op rs1 rs2 rd) :=
  withReg_mapNext rs1 rfl fun a => withReg_mapNext rs2 rfl fun b => withReg_mapNext rd rfl fun _ =>
    narrow_mapNext (op (s.sreg a) (s.sreg b)) rfl rfl fun _ => rfl

theorem State.compare_setRem (r : Relation) (rs1 rs2 : Byte) :
    (s.setRem v).compare r rs1 rs2 = mapNext (fun t => t.setRem v) (s.compare r rs1 rs2) :=
  withReg_mapNext rs1 rfl fun _ => withReg_mapNext rs2 rfl fun _ => rfl

theorem State.jumpTo_setRem (t : Int) :
    (s.setRem v).jumpTo t = mapNext (fun t => t.setRem v) (s.jumpTo t) :=
  ite_mapNext rfl rfl

theorem State.withJumpValue_setRem (r : Fin 32) (f : Int → Int) :
    ((s.setRem v).withJumpValue r fun x => (s.setRem v).jumpTo (f x)) =
      mapNext (fun t => t.setRem v) (s.withJumpValue r fun x => s.jumpTo (f x)) :=
  ite_mapNext rfl (s.jumpTo_setRem v (f (s.sreg r)))

theorem execJumpIfEqual_setRem (ra : Byte) :
    execJumpIfEqual ra (s.setRem v) = mapNext (fun t => t.setRem v) (execJumpIfEqual ra s) :=
  withReg_mapNext ra rfl fun r => ite_mapNext (s.withJumpValue_setRem v r fun x => x) rfl

/-- Raising a fault keeps the remainder it found, in a DIV too. -/
theorem State.raised_remAfter (i : Instr) {c : StopCause} (hc : c.isFault = true) :
    (s.setRem v).raised c = mapNext (remAfter i v) (s.raised c) := by
  have hf : (s.raiseFault c).faulted = true := hc
  have h : remAfter i v (s.raiseFault c) = (s.raiseFault c).setRem v := if_neg (by simp [hf])
  rw [State.raised, State.raised, mapNext, h]
  rfl

/-- DIV overwrites whatever remainder it found (R143). -/
theorem execDiv_setRem (rs1 rs2 rd : Byte) :
    execDiv rs1 rs2 rd (s.setRem v) = mapNext (remAfter (.div rs1 rs2 rd) v) (execDiv rs1 rs2 rd s) := by
  have hindex := s.raised_remAfter v (.div rs1 rs2 rd) (c := .regIndex) rfl
  refine withReg_mapNext rs1 hindex fun a => withReg_mapNext rs2 hindex fun b => withReg_mapNext rd hindex fun _ => ?_
  refine ite_mapNext (s.raised_remAfter v _ rfl) ?_
  exact narrow_mapNext (tdiv (s.sreg a) (s.sreg b)) rfl (s.raised_remAfter v _ rfl) fun _ =>
    congrArg Host.Outcome.next (if_pos ⟨rfl, rfl⟩).symm

/-- An instruction other than DIV carries the remainder it found through (R32). -/
theorem exec_setRem_of_ne_div {i : Instr} (hi : i.opcode ≠ .div) :
    exec i (s.setRem v) = mapNext (fun t => t.setRem v) (exec i s) := by
  cases i with
  | halt | print | nop | illegal => rfl
  | load rd imm => exact withReg_mapNext rd rfl fun _ => rfl
  | add | sub | mul => exact s.arith_setRem v ..
  | div => exact absurd rfl hi
  | jumpAbsolute | jumpForward | jumpBackward => exact withReg_mapNext _ rfl fun r => s.withJumpValue_setRem v r _
  | jumpIfEqual ra => exact execJumpIfEqual_setRem s v ra
  | equal | notEqual | lessThan | greaterThan | lessOrEqual | greaterOrEqual => exact s.compare_setRem v ..

theorem exec_setRem (i : Instr) : exec i (s.setRem v) = mapNext (remAfter i v) (exec i s) := by
  by_cases hi : i.opcode = .div
  · obtain ⟨rs1, rs2, rd, rfl⟩ := Instr.opcode_eq_div.mp hi
    exact execDiv_setRem s v rs1 rs2 rd
  · rw [exec_setRem_of_ne_div s v hi, remAfter_of_ne_div hi]

/-- The fetch does not read `rem`. -/
@[simp] theorem State.fetch_setRem : (s.setRem v).fetch = s.fetch := rfl

/-- A step that reaches no instruction carries the remainder through. -/
theorem step_setRem_of_no_instr (h : ∀ i, s.fetch ≠ .instr i) :
    step (s.setRem v) = mapNext (fun t => t.setRem v) (step s) := by
  rw [step, step, State.fetch_setRem]
  cases hf : s.fetch with
  | instr i => exact absurd hf (h i)
  | faulted | atEnd | truncated | noByte => rfl

end

/-- The step of `s` completed a DIV and left `t`. -/
abbrev CompletesDiv (s t : State) : Prop := (∃ rs1 rs2 rd, s.fetch = .instr (.div rs1 rs2 rd)) ∧ t.faulted = false

/-- From another remainder a step does the same, but for a remainder that no DIV overwrote (R32). -/
theorem step_setRem {s t : State} (h : step s = .next t) (v : Word) :
    (CompletesDiv s t → step (s.setRem v) = .next t) ∧
      (¬ CompletesDiv s t → step (s.setRem v) = .next (t.setRem v)) := by
  by_cases hf : ∃ i, s.fetch = .instr i
  · obtain ⟨i, hf⟩ := hf
    have hdiv : CompletesDiv s t ↔ i.opcode = .div ∧ t.faulted = false := by
      simp [CompletesDiv, hf, Instr.opcode_eq_div]
    have hstep : step (s.setRem v) = .next (remAfter i v t) := by
      have hexec : exec i s = .next t := (step_of_instr hf).symm.trans h
      rw [step_of_instr (s := s.setRem v) hf, exec_setRem, hexec, mapNext]
    rw [hdiv, hstep]
    exact ⟨fun hc => by rw [remAfter, if_pos hc], fun hc => by rw [remAfter, if_neg hc]⟩
  · have hno : ∀ i, s.fetch ≠ .instr i := fun i hi => hf ⟨i, hi⟩
    refine ⟨fun ⟨⟨_, _, _, hd⟩, _⟩ => absurd hd (hno _), fun _ => ?_⟩
    rw [step_setRem_of_no_instr s v hno, h, mapNext]

/-- A step that changes `rem` completed a DIV (R32). -/
theorem step_changes_rem {s t : State} (h : step s = .next t) (hne : t.rem ≠ s.rem) :
    ∃ rs1 rs2 rd, s.fetch = .instr (.div rs1 rs2 rd) ∧ t.Continues := by
  rcases step_next_cases h with ⟨-, hrem, -⟩ | ⟨i, hf, he⟩
  · exact absurd hrem hne
  · obtain ⟨⟨rs1, rs2, rd, rfl⟩, hcont⟩ := he.changes_rem hne
    exact ⟨rs1, rs2, rd, hf, hcont⟩

/-- Settles O49. -/
theorem remIsWrittenByDivAndNeverRead : Obligations.RemIsWrittenByDivAndNeverRead := by
  intro s t h
  refine ⟨step_changes_rem h, fun rs1 rs2 rd a b hf ht ha hb => ?_, step_setRem h⟩
  rw [step_of_instr hf] at h
  exact execDiv_rem h ht ha hb

end Sys2Proof.Machine
end

section
/-! PROOFS. The program buffer and the parameters are read-only to the step (R57, R240). -/

namespace Sys2Proof.Machine

/-- Whatever the fetch finds, a step that answers a next state keeps the buffer and the parameters. -/
theorem step_prog_cfg {s t : State} (h : step s = .next t) : t.prog = s.prog ∧ t.cfg = s.cfg := by
  cases hf : s.fetch with
  | faulted => rw [step_of_faulted hf] at h; cases h; exact ⟨rfl, rfl⟩
  | atEnd => rw [step_of_atEnd hf] at h; cases h; exact ⟨s.stop_prog _, s.stop_cfg _⟩
  | truncated => rw [step_of_truncated hf] at h; cases h; exact ⟨s.raiseFault_prog _, s.raiseFault_cfg _⟩
  | noByte => rw [step_of_noByte hf] at h; cases h
  | instr i => rw [step_of_instr hf] at h; exact (execEffect_of_next h).prog_cfg

/-- Settles O46: every byte and the length are read from the one buffer field, so they are kept with it. -/
theorem programIsReadOnly : Obligations.ProgramIsReadOnly := by
  intro s t h
  obtain ⟨hprog, hcfg⟩ := step_prog_cfg h
  exact ⟨⟨fun a => congrArg (Memory.get · a) hprog, hprog, hcfg⟩, congrArg List.length hprog⟩

end Sys2Proof.Machine
end

section
/-! PROOFS. The opcode map and its inverse (R81, R85, R88), and the round trips of the instruction encoding (R70 to R76). -/

namespace Sys2Proof

/-! ### The opcode byte -/

/-- The 17 operations have a byte (R88). -/
theorem exists_encodeOpcode {op : Opcode} (h : op ≠ .igl) : ∃ b, encodeOpcode op = some b := by
  cases op with
  | igl => exact absurd rfl h
  | _ => exact ⟨_, rfl⟩

/-- The bytes without an operation of their own (R81, R82). -/
theorem decodeOpcode_eq_igl_iff :
    ∀ b : Byte, decodeOpcode b = .igl ↔ ¬ (b.toNat = 0 ∨ (10 ≤ b.toNat ∧ b.toNat ≤ 24) ∨ b.toNat = 255) := by
  decide

/-- A byte that decodes to ILLEGAL is the byte of no operation (R88). -/
theorem encodeOpcode_ne_of_igl {b : Byte} (hb : decodeOpcode b = .igl) (op : Opcode) : encodeOpcode op ≠ some b := by
  intro h
  obtain rfl : op = .igl := (decodeOpcode_of_encodeOpcode h).symm.trans hb
  exact nomatch h

/-- The length that an opcode byte decides, in numbers (R70, R87). -/
theorem length_of_opcode_byte : ∀ b : Byte, 1 + operandCount (decodeOpcode b) =
    if (10 ≤ b.toNat ∧ b.toNat ≤ 14) ∨ (18 ≤ b.toNat ∧ b.toNat ≤ 23) then 4
    else if (15 ≤ b.toNat ∧ b.toNat ≤ 17) ∨ b.toNat = 24 then 2 else 1 := by
  decide

/-! ### The instruction -/

theorem Instr.encode_of_opcode {i : Instr} {b : Byte} (h : encodeOpcode i.opcode = some b) :
    i.encode = some (b :: i.operandBytes) := by
  rw [Instr.encode, h, Option.map_some]

/-- The operand stage reads back an operation's own operand bytes, and no byte after them (R71 to R76). -/
theorem decodeOperands_operandBytes {i : Instr} (h : i.opcode ≠ .igl) (b0 : Byte) (rest : List Byte) :
    decodeOperands i.opcode b0 (i.operandBytes ++ rest) = .instr i rest := by
  cases i with
  | print | illegal => exact absurd rfl h
  | load rd imm =>
    calc decodeOperands .load b0 (rd :: immHi imm :: immLo imm :: rest)
      _ = .instr (.load rd (immOfBytes (immHi imm) (immLo imm))) rest := rfl
      _ = .instr (.load rd imm) rest := by rw [immOfBytes_immHi_immLo]
  | _ => rfl

/-- What is decoded is the opcode byte, that opcode's operand bytes and the rest (R86). -/
theorem decode_eq_instr {bs rest : List Byte} {i : Instr} (h : decode bs = .instr i rest) :
    ∃ b0, bs = b0 :: (i.operandBytes ++ rest) ∧ i.opcode = decodeOpcode b0 ∧
      i.operandBytes.length = operandCount i.opcode := by
  cases bs with
  | nil => exact nomatch h
  | cons b0 bs =>
    rcases decodeOperands_cases (decodeOpcode b0) b0 bs with ⟨j, tail, hj, hop, hbs, hlen⟩ | ⟨-, hj⟩
    · cases hj.symm.trans h
      exact ⟨b0, congrArg _ hbs, hop, hop ▸ hlen⟩
    · exact nomatch hj.symm.trans h

/-! ### The obligations -/

/-- Settles O4: the opcode byte decodes to the opcode (R88), and the operand stage undoes the operand bytes. -/
theorem instrDecodeOfEncode : Obligations.InstrDecodeOfEncode := by
  intro i hi
  obtain ⟨b, hb⟩ := exists_encodeOpcode hi
  refine ⟨_, Instr.encode_of_opcode hb, fun rest => ?_⟩
  rw [List.cons_append, decode, decodeOpcode_of_encodeOpcode hb]
  exact decodeOperands_operandBytes hi b rest

/-- Settles O5: the opcode byte of an operation is the only one (R81). -/
theorem instrEncodeOfDecode : Obligations.InstrEncodeOfDecode := by
  intro bs rest i h hi
  obtain ⟨b0, rfl, hop, -⟩ := decode_eq_instr h
  have hb : encodeOpcode i.opcode = some b0 := by
    rw [hop] at hi ⊢
    exact encodeOpcode_decodeOpcode b0 hi
  exact ⟨_, Instr.encode_of_opcode hb, rfl⟩

/-- Settles O6. -/
theorem decodeConsumesTheLength : Obligations.DecodeConsumesTheLength := by
  intro b0 bs rest i h
  obtain ⟨_, hbs, hop, hlen⟩ := decode_eq_instr h
  cases hbs
  refine ⟨hop, ?_, ?_⟩
  · rw [List.length_cons, List.length_append, hlen, Instr.length]
    omega
  · rw [Instr.length, hop, length_of_opcode_byte]

/-- Settles O7. -/
theorem decodeTruncatedExactly : Obligations.DecodeTruncatedExactly := by
  intro b0 bs op
  rw [decode]
  rcases decodeOperands_cases (decodeOpcode b0) b0 bs with ⟨i, rest, hi, -, hbs, hlen⟩ | ⟨hshort, ht⟩
  · have henough : operandCount (decodeOpcode b0) ≤ bs.length := by
      rw [hbs, List.length_append, hlen]
      omega
    rw [hi]
    refine ⟨nofun, ?_⟩
    rintro ⟨rfl, hshort⟩
    omega
  · rw [ht]
    refine ⟨fun h => ?_, fun ⟨hop, _⟩ => congrArg _ hop.symm⟩
    cases h
    exact ⟨rfl, hshort⟩

/-- Settles O2. -/
theorem opcodeMapOfTheTable : Obligations.OpcodeMapOfTheTable :=
  ⟨by decide, rfl, decodeOpcode_eq_igl_iff⟩

/-- Settles O3. -/
theorem opcodeEncodeIsRightInverse : Obligations.OpcodeEncodeIsRightInverse := by
  refine ⟨fun op hop => ?_, rfl, encodeOpcode_ne_of_igl rfl⟩
  obtain ⟨b, hb⟩ := exists_encodeOpcode hop
  exact ⟨b, hb, decodeOpcode_of_encodeOpcode hb⟩

end Sys2Proof
end

section
/-! PROOFS. The sequencer: Execute-one stage by stage (spec/40_sequencer_and_host.md R100 to R109), the pc and the status it leaves
(R107, R108, R113), and Run (R110, R111). -/

namespace Sys2Proof.Machine

open Sys2Proof.Claims

/-! ### The fetch by what it finds -/

/-- Stage 3 comes after stages 0 and 1: with an opcode byte read, it answers neither of theirs (R104). -/
theorem State.fetchOperands_cases (s : State) (b0 : Byte) :
    s.fetchOperands b0 = .truncated ∨ s.fetchOperands b0 = .noByte ∨ ∃ i, s.fetchOperands b0 = .instr i := by
  unfold State.fetchOperands
  split
  · exact .inl rfl
  split
  · rename_i bs _
    rw [decode]
    rcases decodeOperands_cases (decodeOpcode b0) b0 bs with ⟨i, rest, h, -⟩ | ⟨-, h⟩ <;> rw [h]
    · exact .inr (.inr ⟨i, rfl⟩)
    · exact .inl rfl
  · exact .inr (.inl rfl)

section
variable {s : State}

/-- Stages 2 and 3 are reached below `len` (R103, R104). -/
theorem State.fetch_cases_of_lt (hf : s.faulted = false) (hlt : s.pc.toNat < s.len) :
    s.fetch = .truncated ∨ s.fetch = .noByte ∨ ∃ i, s.fetch = .instr i := by
  rw [State.fetch, if_neg (by simp [hf]), if_neg (by omega)]
  split
  · exact s.fetchOperands_cases _
  · exact .inr (.inl rfl)

/-- Stage 0 is the whole step of a faulted engine (R101). -/
theorem step_faulted (hf : s.faulted = true) : step s = .next s :=
  step_of_faulted (State.fetch_of_faulted hf)

/-- Stage 1 is the whole step at or beyond the end of the buffer (R102). -/
theorem step_at_end (hf : s.faulted = false) (he : s.len ≤ s.pc.toNat) : step s = .next (s.stop .atEnd) :=
  step_of_atEnd (State.fetch_at_end hf he)

/-- The step is the execution of what the bytes from the pc on decode to (R103 to R106). -/
theorem step_of_decode {i : Instr} {rest : List Byte} (hw : s.prog.wf = true) (hf : s.faulted = false)
    (hd : decode (s.prog.bytes.drop s.pc.toNat) = .instr i rest) : step s = exec i s :=
  step_of_instr (by rw [s.fetch_eq_decode hw hf, hd, Fetched.ofDecoded])

/-- Everything the step of an engine that is not faulted can do (R102 to R108). -/
theorem step_cases_of_not_faulted {t : State} (hf : s.faulted = false) (h : step s = .next t) :
    (s.len ≤ s.pc.toNat ∧ t = s.stop .atEnd) ∨ t = s.raiseFault .truncated ∨
      ∃ i, s.fetch = .instr i ∧ ExecEffect i s t := by
  by_cases he : s.len ≤ s.pc.toNat
  · rw [step_at_end hf he] at h
    cases h
    exact .inl ⟨he, rfl⟩
  rcases State.fetch_cases_of_lt hf (by omega) with hx | hx | ⟨i, hx⟩
  · rw [step_of_truncated hx] at h
    cases h
    exact .inr (.inl rfl)
  · rw [step_of_noByte hx] at h
    cases h
  · rw [step_of_instr hx] at h
    exact .inr (.inr ⟨i, hx, execEffect_of_next h⟩)

end

/-! ### The pc after an instruction -/

section
variable {i : Instr} {s t : State}

/-- In a good state the sequential advance over a fetched instruction does not wrap (R107; log 4). -/
theorem State.toNat_advance_length (hs : s.Inv) (hf : s.fetch = .instr i) :
    (s.advance i.length).pc.toNat = s.pc.toNat + i.length := by
  obtain ⟨hw, hcap, -⟩ := hs
  have hend := (State.fetch_instr hw hf).2
  have := s.cfg.progCapacity.isLt
  rw [State.advance_pc, BitVec.toNat_add, BitVec.toNat_ofNat]
  omega

theorem Instr.length_of_hasDestination {rd : Byte} (h : HasDestination i rd) : i.length = 4 := by
  rcases h with ⟨imm, rfl⟩ | ⟨rs1, rs2, rfl | rfl | rfl | rfl⟩ <;> rfl

theorem Instr.length_of_comparison
    (h : i.opcode ∈ [Opcode.equal, .notEqual, .lessThan, .greaterThan, .lessOrEqual, .greaterOrEqual]) :
    i.length = 4 := by
  simp only [List.mem_cons, List.not_mem_nil, or_false] at h
  rcases h with h | h | h | h | h | h <;> rw [Instr.length, h] <;> rfl

/-- HALT and every unrecognised byte are one byte long (R82, R200). -/
theorem Instr.length_of_stop (h : i.opcode = .halt ∨ i.opcode = .igl) : i.length = 1 := by
  rcases h with h | h <;> rw [Instr.length, h] <;> rfl

/-- An effect that is no fault, of an instruction that does not write the pc in its execute stage, advances the pc by the
instruction's length (R107). -/
theorem ExecEffect.pc_eq_advance (h : ExecEffect i s t) (ht : t.faulted = false)
    (hi : i.opcode ∉ [Opcode.nop, .jumpAbsolute, .jumpForward, .jumpBackward, .jumpIfEqual]) :
    t.pc = (s.advance i.length).pc := by
  cases h with
  | fault hf => exact absurd (hf.symm.trans ht) (by decide)
  | stop hc => rw [Instr.length_of_stop (hc.imp And.left And.left)]; rfl
  | goto p hp => exact absurd hp hi
  | write v hd => rw [Instr.length_of_hasDestination hd]; rfl
  | @divide rs1 rs2 rd d q r hd => subst hd; rfl
  | compare b hc => rw [Instr.length_of_comparison hc]; rfl

/-- A JUMP-IF-EQUAL that is not taken and does not fault advances the pc by its length (R107, R163). -/
theorem execJumpIfEqual_not_taken_pc {ra : Byte} (heq : s.eq = false) (h : execJumpIfEqual ra s = .next t)
    (ht : t.faulted = false) : t.pc = (s.advance 2).pc := by
  rw [execJumpIfEqual_not_taken heq] at h
  rcases withReg_cases ra s (fun _ => s.finish 2) with ⟨r, -, hr⟩ | ⟨-, hr⟩ <;> cases hr.symm.trans h
  · rfl
  · exact nomatch ht

/-- An instruction that completes and is no jump taken leaves the pc after its own bytes (R107). -/
theorem exec_pc_of_no_jump_taken (h : exec i s = .next t) (ht : t.faulted = false)
    (hi : i.opcode ≠ .jumpAbsolute ∧ i.opcode ≠ .jumpForward ∧ i.opcode ≠ .jumpBackward ∧
      (i.opcode = .jumpIfEqual → s.eq = false)) : t.pc = (s.advance i.length).pc := by
  obtain ⟨ha, hf, hb, heq⟩ := hi
  cases i with
  | nop => cases h; rfl
  | jumpIfEqual ra => exact execJumpIfEqual_not_taken_pc (heq rfl) h ht
  | jumpAbsolute => exact absurd rfl ha
  | jumpForward => exact absurd rfl hf
  | jumpBackward => exact absurd rfl hb
  | _ => exact (execEffect_of_next h).pc_eq_advance ht (by simp [Instr.opcode])

/-- A jump that is taken and does not fault leaves the pc at its exact target (R107, R170); `f` is the target from the register's
value. -/
theorem jump_pc {ra : Byte} {r : Fin 32} {f : Int → Int} (hr : ra.toNat = r.val)
    (h : withReg ra s (fun r => s.withJumpValue r fun v => s.jumpTo (f v)) = .next t) (ht : t.faulted = false) :
    (t.pc.toNat : Int) = f (s.sreg r) := by
  rcases s.jump_cases ra f with ⟨-, hj⟩ | ⟨r', hr', ⟨⟨-, h0, h1⟩, hj⟩ | ⟨-, hj⟩⟩ <;> cases hj.symm.trans h
  · exact nomatch ht
  · obtain rfl : r = r' := Fin.ext (hr.symm.trans hr')
    exact toNat_ofInt_target h0 h1
  · exact nomatch ht

/-! ### The status after an instruction, and the step after a stop -/

/-- HALT ends with cause HALT, ILLEGAL and PRINT with cause ILLEGAL, and every other instruction that does not fault with
Continue (R108). -/
theorem ExecEffect.status (h : ExecEffect i s t) (ht : t.faulted = false) :
    i.opcode = .halt ∧ t.StopsWith .halt ∨ i.opcode = .igl ∧ t.StopsWith .illegal ∨
      (i.opcode ≠ .halt ∧ i.opcode ≠ .igl) ∧ t.Continues := by
  cases h with
  | fault hf => exact absurd (hf.symm.trans ht) (by decide)
  | stop hc =>
    rcases hc with ⟨hop, rfl⟩ | ⟨hop, rfl⟩
    · exact .inl ⟨hop, rfl, rfl, rfl⟩
    · exact .inr (.inl ⟨hop, rfl, rfl, rfl⟩)
  | goto p hp => exact .inr (.inr ⟨⟨ne_of_mem_of_not_mem hp (by decide), ne_of_mem_of_not_mem hp (by decide)⟩,
      State.resume_continues _⟩)
  | write v hd =>
    refine .inr (.inr ⟨?_, State.resume_continues _⟩)
    rcases hd with ⟨imm, rfl⟩ | ⟨rs1, rs2, rfl | rfl | rfl | rfl⟩ <;> simp [Instr.opcode]
  | divide q r hd => subst hd; exact .inr (.inr ⟨by simp [Instr.opcode], State.resume_continues _⟩)
  | compare b hc => exact .inr (.inr ⟨⟨ne_of_mem_of_not_mem hc (by decide), ne_of_mem_of_not_mem hc (by decide)⟩,
      State.resume_continues _⟩)

/-- No instruction ends with the cause END (R215). -/
theorem ExecEffect.stopCause_ne_atEnd (h : ExecEffect i s t) : t.stopCause ≠ .atEnd := by
  cases h with
  | fault hf => rintro rfl; exact nomatch hf
  | stop hc => rcases hc with ⟨-, rfl⟩ | ⟨-, rfl⟩ <;> nofun
  | goto | write | divide | compare => nofun

/-- An instruction that ends with cause HALT or ILLEGAL moved past its one byte (R200, R202). -/
theorem ExecEffect.eq_stop (h : ExecEffect i s t) (hc : t.stopCause = .halt ∨ t.stopCause = .illegal) :
    i.length = 1 ∧ t = (s.advance 1).stop t.stopCause := by
  cases h with
  | @fault f hf => rcases hc with rfl | rfl <;> exact nomatch hf
  | stop ho => exact ⟨Instr.length_of_stop (ho.imp And.left And.left), rfl⟩
  | goto | write | divide | compare => rcases hc with hc | hc <;> exact nomatch hc

end

/-- After HALT or ILLEGAL the pc is past the opcode byte, and a further step runs the instruction there (R113, R213, R214). -/
theorem step_after_stop {s t : State} (hs : s.Inv) (hf : s.faulted = false) (h : step s = .next t)
    (hc : t.stopCause = .halt ∨ t.stopCause = .illegal) :
    t.pc.toNat = s.pc.toNat + 1 ∧
      ∀ i rest, decode (s.prog.bytes.drop (s.pc.toNat + 1)) = .instr i rest → step t = exec i t := by
  rcases step_cases_of_not_faulted hf h with ⟨-, rfl⟩ | rfl | ⟨i, hi, he⟩
  · rcases hc with hc | hc <;> exact nomatch hc
  · rcases hc with hc | hc <;> exact nomatch hc
  · obtain ⟨hlen, ht⟩ := he.eq_stop hc
    have hpc : t.pc.toNat = s.pc.toNat + 1 := by
      rw [ht, State.stop_pc, ← hlen, State.toNat_advance_length hs hi]
    have hprog : t.prog = s.prog := he.prog_cfg.1
    have htf : t.faulted = false := by rcases hc with hc | hc <;> rw [State.faulted, hc] <;> rfl
    refine ⟨hpc, fun j rest hd => step_of_decode (rest := rest) (hprog ▸ hs.1) htf ?_⟩
    rwa [hprog, hpc]

/-- After END the pc still stands at or beyond the end, and a further step finds it there again (R113, R215). -/
theorem step_after_atEnd {s t : State} (hf : s.faulted = false) (h : step s = .next t) (hc : t.stopCause = .atEnd) :
    step t = .next t := by
  rcases step_cases_of_not_faulted hf h with ⟨he, rfl⟩ | rfl | ⟨i, -, he⟩
  · exact step_at_end rfl he
  · exact nomatch hc
  · exact absurd hc he.stopCause_ne_atEnd

/-! ### Run -/

/-- Run under fuel returns by one Execute-one that stops, or one that continues and a run under the fuel left (R110). -/
theorem run_succ_eq_returned {k : Nat} {s t : State} :
    run (k + 1) s = .returned t ↔
      ∃ u, step s = .next u ∧ ((u.signal = .stop ∧ t = u) ∨ (u.signal = .cont ∧ run k u = .returned t)) := by
  rw [run]
  cases step s with
  | next u => cases hu : u.signal <;> simp [hu, eq_comm]
  | fault f => simp
  | refused r => simp

/-- More fuel does not change what a run returns (R110). -/
theorem run_mono {k k' : Nat} {s t : State} (h : run k s = .returned t) (hk : k ≤ k') : run k' s = .returned t := by
  induction k generalizing s k' with
  | zero => exact nomatch h
  | succ k ih =>
    obtain ⟨k', rfl⟩ : ∃ n, k' = n + 1 := ⟨k' - 1, by omega⟩
    obtain ⟨u, hu, hstop | ⟨hcont, hrun⟩⟩ := run_succ_eq_returned.mp h
    · exact run_succ_eq_returned.mpr ⟨u, hu, .inl hstop⟩
    · exact run_succ_eq_returned.mpr ⟨u, hu, .inr ⟨hcont, ih hrun (by omega)⟩⟩

/-- A run that returns has one outcome: both returns stand under the sum of their fuels (R44, R110). -/
theorem RunsTo.unique {s t t' : State} (h : RunsTo s t) (h' : RunsTo s t') : t' = t := by
  obtain ⟨k, hk⟩ := h
  obtain ⟨k', hk'⟩ := h'
  have := (run_mono hk' (Nat.le_add_left k' k)).symm.trans (run_mono hk (Nat.le_add_right k k'))
  injection this

/-! ### The obligations -/

/-- Settles O9: after an Append-byte at the pc, the pc lies below `len`. -/
theorem endOfBufferStops : Obligations.EndOfBufferStops := by
  intro s hf he
  refine ⟨_, step_at_end hf he, ⟨fun _ => rfl, rfl, rfl⟩, ⟨fun _ => rfl, rfl, rfl⟩, rfl, ⟨rfl, rfl, rfl⟩, rfl, ?_⟩
  intro b u hlen hu
  obtain ⟨-, rfl⟩ := hostAppendByte_next hu
  have hlt : s.pc.toNat < (s.prog.push b).length := by
    rw [Memory.length_push]
    exact Nat.lt_succ_of_le hlen.ge
  rcases State.fetch_cases_of_lt (s := { s.stop .atEnd with prog := s.prog.push b }) rfl hlt with h | h | ⟨i, h⟩ <;>
    exact ⟨h ▸ nofun, h ▸ nofun⟩

/-- Settles O13: by the sequential advance, or by the jump's own target. -/
theorem nextPc : Obligations.NextPc := by
  intro s t i hs hf hstep ht
  have h : exec i s = .next t := (step_of_instr hf).symm.trans hstep
  refine ⟨fun hi => ?_, fun ra r hr => ⟨?_, ?_, ?_⟩⟩
  · rw [exec_pc_of_no_jump_taken h ht hi, State.toNat_advance_length hs hf]
  · rintro (rfl | ⟨rfl, heq⟩)
    · exact jump_pc (f := fun v => v) hr h ht
    · exact jump_pc (f := fun v => v) hr ((execJumpIfEqual_taken heq ra).symm.trans h) ht
  · rintro rfl
    exact jump_pc (f := fun v => (s.pc.toNat : Int) + 2 + v) hr h ht
  · rintro rfl
    exact jump_pc (f := fun v => (s.pc.toNat : Int) + 2 - v) hr h ht

/-- Settles O14. -/
theorem signalOfCompletion : Obligations.SignalOfCompletion := by
  intro s t i hf hstep ht
  have h : ExecEffect i s t := execEffect_of_next ((step_of_instr hf).symm.trans hstep)
  rcases h.status ht with ⟨hop, hst⟩ | ⟨hop, hst⟩ | ⟨⟨hhalt, higl⟩, hst⟩
  · rwa [if_pos hop]
  · rwa [hop, if_neg (by decide), if_pos rfl]
  · rwa [if_neg hhalt, if_neg higl]

/-- Settles O52. -/
theorem stopsResumeAndFaultsDoNot : Obligations.StopsResumeAndFaultsDoNot :=
  fun _ _ hs hf h => ⟨step_after_stop hs hf h, step_after_atEnd hf h, step_faulted⟩

/-- Settles O57: the run with one step's fuel more. -/
theorem runRepeatsUntilStop : Obligations.RunRepeatsUntilStop := by
  intro s t
  constructor
  · rintro ⟨_ | k, h⟩
    · exact nomatch h
    · obtain ⟨u, hu, hstop | ⟨hcont, hrun⟩⟩ := run_succ_eq_returned.mp h
      · exact ⟨u, hu, .inl hstop⟩
      · exact ⟨u, hu, .inr ⟨hcont, k, hrun⟩⟩
  · rintro ⟨u, hu, hstop | ⟨hcont, k, hrun⟩⟩
    · exact ⟨1, run_succ_eq_returned.mpr ⟨u, hu, .inl hstop⟩⟩
    · exact ⟨k + 1, run_succ_eq_returned.mpr ⟨u, hu, .inr ⟨hcont, hrun⟩⟩⟩

/-- Settles O58. -/
theorem runIsDeterministic : Obligations.RunIsDeterministic :=
  fun _ _ => ⟨fun _ h h' => h.unique h', fun _ _ h hk => run_mono h hk⟩

/-- Settles O10. -/
theorem stepRunsDecodedInstruction : Obligations.StepRunsDecodedInstruction :=
  fun _ _ _ hw hf hd => step_of_decode hw hf hd

end Sys2Proof.Machine
end

section
/-! PROOFS. LOAD (spec/41_load.md), by `exec` and as one Execute-one sees it; and the two facts it shares with every instruction
that has a destination or operand bytes: the frame of a register write, and the fetch from the operand bytes. -/

namespace Sys2Proof.Machine

/-! ### Shared facts -/

/-- A completed write of one register: the value, and everything else as it was (R107, R108). -/
theorem State.setReg_advance_resume_frame (s : State) (d : Fin 32) (v : Word) (n : Nat) {t : State}
    (ht : t = ((s.setReg d v).advance n).resume) :
    t.sreg d = v.toInt ∧ s.SameRegsBut t d ∧ t.rem = s.rem ∧ t.eq = s.eq ∧ t.pc = s.pc + BitVec.ofNat 32 n ∧
      t.Continues ∧ s.SameProgram t := by
  subst ht
  exact ⟨s.sreg_setReg_same d v, fun _ hj => s.reg_setReg_other v hj.symm, rfl, rfl, rfl, State.resume_continues _,
    fun _ => rfl, rfl, rfl⟩

/-- At an opcode byte whose operand bytes are in place, the fetch finds what these bytes decode to (R103, R104). -/
theorem State.fetch_of_decode_operands {s : State} {b0 : Byte} {bs rest : List Byte} {i : Instr} (h : s.AtOpcode b0)
    (hb : s.OperandsAre bs) (hl : bs.length = operandCount (decodeOpcode b0))
    (hd : decode (b0 :: bs) = .instr i rest) : s.fetch = .instr i := by
  rw [State.fetch_operands h hl hb, hd, Fetched.ofDecoded]

/-! ### LOAD -/

/-- The zero-extended immediate is never negative (R80, R130). -/
theorem toInt_zext32 (imm : Imm16) : (zext32 imm).toInt = (imm.toNat : Int) := by
  have := imm.isLt
  have hn : (zext32 imm).toNat = imm.toNat := BitVec.toNat_setWidth_of_le (by decide)
  rw [BitVec.toInt_eq_toNat_of_lt (by omega), hn]

/-- LOAD with a valid destination (R105, R130). -/
theorem execLoad_valid (s : State) {rd : Byte} {d : Fin 32} (hd : rd.toNat = d.val) (imm : Imm16) :
    execLoad rd imm s = .next ((s.setReg d (zext32 imm)).advance 4).resume :=
  withReg_valid hd

/-- LOAD's bytes, the immediate's high byte first (R74, R80). -/
theorem encode_load (rd hi lo : Byte) : (Instr.load rd (immOfBytes hi lo)).encode = some [10, rd, hi, lo] := by
  rw [Instr.encode_of_opcode rfl, Instr.operandBytes, immHi_immOfBytes, immLo_immOfBytes]

/-- Settles O15: the frame of a register write, with the immediate's zero-extension written. -/
theorem loadCompletes : Obligations.LoadCompletes := by
  intro s rd imm d hd
  refine ⟨_, execLoad_valid s hd imm, ?_⟩
  rw [← toInt_zext32 imm]
  exact s.setReg_advance_resume_frame d (zext32 imm) 4 rfl

/-- Settles O16: the step is `exec` of the LOAD fetched; in a good state pc + 4 does not wrap. -/
theorem loadRule : Obligations.LoadRule := by
  refine ⟨encode_load, fun s hs b1 b2 b3 d hb hd => ?_⟩
  have hf : s.fetch = .instr (.load b1 (immOfBytes b2 b3)) := State.fetch_of_decode_operands hs hb rfl rfl
  obtain ⟨t, ht, hval, hregs, hrem, heq, hpc, hcont, hprog⟩ := loadCompletes s b1 (immOfBytes b2 b3) d hd
  refine ⟨t, (step_of_instr hf).trans ht, ?_, hregs, hrem, heq, ?_, hcont, hprog⟩
  · rw [hval, toNat_immOfBytes, Nat.cast_add, Nat.cast_mul, Nat.cast_ofNat]
  · rw [hpc]
    exact State.toNat_advance_length hs.1 hf

end Sys2Proof.Machine
end

section
/-! PROOFS. ADD, SUB, MUL and DIV (spec/42_arithmetic.md): their completions, by `exec` and as one Execute-one sees it, the
division by zero, and what they read and write. -/

namespace Sys2Proof.Machine

open Sys2Proof.Claims

/-! ### Narrowing a result -/

theorem fits32_iff {v : Int} : fits32 v = true ↔ Fits v := decide_eq_true_iff

/-- A narrowed result is the result modulo 2^32, and the result itself where it fits (R11, R150). -/
theorem wrapsTo_bits32 (v : Int) : WrapsTo v (bits32 v).toInt := by
  refine ⟨⟨Int.bdiv v 4294967296, ?_⟩, fun h => toInt_bits32 (fits32_iff.mpr h)⟩
  rw [bits32, BitVec.toInt_ofInt]
  exact (Int.bmod_add_bdiv' v 4294967296).symm

/-- Narrowing goes on wherever the result fits or wraps (R150, R156). -/
theorem State.narrow_of_fits_or_wrap {s : State} {v : Int} {k : Word → Host.Outcome State Fault Refusal}
    (hv : Fits v ∨ s.cfg.arithOverflow = .wrap) : s.narrow v k = k (bits32 v) := by
  rcases s.narrow_cases v k with ⟨-, h⟩ | ⟨hn, hm, -⟩
  · exact h
  · rw [← fits32_iff, hn, hm] at hv
    exact absurd hv (by decide)

/-! ### Execution with valid indices -/

section
variable {s : State} {rs1 rs2 rd : Byte} {a b d : Fin 32}

/-- The ADD, SUB, MUL form where it completes (R150, R157). -/
theorem State.arith_valid {op : Int → Int → Int} (ha : rs1.toNat = a.val) (hb : rs2.toNat = b.val)
    (hd : rd.toNat = d.val) (hv : Fits (op (s.sreg a) (s.sreg b)) ∨ s.cfg.arithOverflow = .wrap) :
    s.arith op rs1 rs2 rd = .next ((s.setReg d (bits32 (op (s.sreg a) (s.sreg b)))).advance 4).resume := by
  rw [State.arith, withReg_valid ha, withReg_valid hb, withReg_valid hd, State.narrow_of_fits_or_wrap hv, State.finish]

/-- DIV where it completes (R143, R153). The remainder is written first, as nothing reads it. -/
theorem execDiv_valid (ha : rs1.toNat = a.val) (hb : rs2.toNat = b.val) (hd : rd.toNat = d.val)
    (hz : s.sreg b ≠ 0) (hv : Fits (tdiv (s.sreg a) (s.sreg b)) ∨ s.cfg.arithOverflow = .wrap) :
    execDiv rs1 rs2 rd s = .next (((s.setRem (bits32 (trem (s.sreg a) (s.sreg b)))).setReg d
      (bits32 (tdiv (s.sreg a) (s.sreg b)))).advance 4).resume := by
  rw [execDiv, withReg_valid ha, withReg_valid hb, withReg_valid hd, if_neg hz, State.narrow_of_fits_or_wrap hv]
  rfl

/-- DIV by a zero-valued register (R154). -/
theorem execDiv_zero (ha : rs1.toNat = a.val) (hb : rs2.toNat = b.val) (hd : rd.toNat = d.val) (hz : s.sreg b = 0) :
    execDiv rs1 rs2 rd s = s.raised .divZero := by
  rw [execDiv, withReg_valid ha, withReg_valid hb, withReg_valid hd, if_pos hz]

end

/-! ### ADD, SUB and MUL -/

section
variable {mk : Byte → Byte → Byte → Instr} {op : Int → Int → Int}

theorem arithCompletes_of_exec_eq_arith (h : ∀ rs1 rs2 rd s, exec (mk rs1 rs2 rd) s = s.arith op rs1 rs2 rd) :
    ArithCompletes mk op := by
  intro s rs1 rs2 rd a b d ha hb hd hv
  obtain ⟨hval, hframe⟩ := s.setReg_advance_resume_frame d (bits32 (op (s.sreg a) (s.sreg b))) 4 rfl
  refine ⟨_, (h rs1 rs2 rd s).trans (State.arith_valid ha hb hd hv), ?_, hframe⟩
  rw [hval]
  exact wrapsTo_bits32 _

/-- The step at a three-operand instruction is the `exec` of what its bytes decode to; in a good state pc + 4 does not wrap. -/
theorem arithRule_of_completes {b0 : Byte} (henc : ∀ rs1 rs2 rd, (mk rs1 rs2 rd).encode = some [b0, rs1, rs2, rd])
    (hop : operandCount (decodeOpcode b0) = 3)
    (hdec : ∀ rs1 rs2 rd, decode [b0, rs1, rs2, rd] = .instr (mk rs1 rs2 rd) []) (h : ArithCompletes mk op) :
    ArithRule b0 mk op := by
  refine ⟨henc, fun s hs b1 b2 b3 a b d hbytes ha hb hd hv => ?_⟩
  have hf : s.fetch = .instr (mk b1 b2 b3) := State.fetch_of_decode_operands hs hbytes hop.symm (hdec b1 b2 b3)
  have hlen : (mk b1 b2 b3).length = 4 := by
    rw [Instr.length, (decodeConsumesTheLength _ _ _ _ (hdec b1 b2 b3)).1, hop]
  have hadv := State.toNat_advance_length hs.1 hf
  obtain ⟨t, ht, hval, hregs, hrem, heq, hpc, hcont, hprog⟩ := h s b1 b2 b3 a b d ha hb hd hv
  refine ⟨t, (step_of_instr hf).trans ht, hval, hregs, hrem, heq, ?_, hcont, hprog⟩
  rw [hlen] at hadv
  rw [hpc]
  exact hadv

end

/-- Settles O17: each of the three is the shared arithmetic form. -/
theorem addSubMulComplete : Obligations.AddSubMulComplete :=
  ⟨arithCompletes_of_exec_eq_arith fun _ _ _ _ => rfl, arithCompletes_of_exec_eq_arith fun _ _ _ _ => rfl,
    arithCompletes_of_exec_eq_arith fun _ _ _ _ => rfl⟩

/-- Settles O18. -/
theorem addRule : Obligations.AddRule :=
  arithRule_of_completes (fun _ _ _ => rfl) rfl (fun _ _ _ => rfl) addSubMulComplete.1

/-- Settles O20. -/
theorem mulRule : Obligations.MulRule :=
  arithRule_of_completes (fun _ _ _ => rfl) rfl (fun _ _ _ => rfl) addSubMulComplete.2.2

/-! ### DIV -/

/-- R152 fixes the quotient and the remainder. -/
theorem tdiv_trem_of_truncDiv {a b q r : Int} (hb : b ≠ 0) (h : TruncDiv a b q r) : tdiv a b = q ∧ trem a b = r := by
  obtain ⟨hdiv, hlt, hpos, hneg⟩ := h
  rw [Int.abs_eq_natAbs b, abs_lt] at hlt
  rw [trem_eq_tmod, tdiv]
  rcases le_total 0 a with ha | ha
  · exact (Int.tdiv_tmod_unique ha hb).mpr ⟨by omega, by omega, hlt.2⟩
  · exact (Int.tdiv_tmod_unique' ha hb).mpr ⟨by omega, hlt.1, by omega⟩

/-- Settles O21: a truncating quotient and remainder are the model's, and the remainder fits its register. -/
theorem divCompletes : Obligations.DivCompletes := by
  intro s rs1 rs2 rd a b d q r ha hb hd hz hqr hv
  obtain ⟨rfl, rfl⟩ := tdiv_trem_of_truncDiv hz hqr
  obtain ⟨hval, hregs, hrem, heq, hpc, hcont, hprog⟩ :=
    (s.setRem (bits32 (trem (s.sreg a) (s.sreg b)))).setReg_advance_resume_frame d
      (bits32 (tdiv (s.sreg a) (s.sreg b))) 4 rfl
  refine ⟨_, execDiv_valid ha hb hd hz hv, ?_, ?_, hregs, heq, hpc, hcont, hprog⟩
  · rw [hval]
    exact wrapsTo_bits32 _
  · rw [hrem]
    exact s.toInt_bits32_trem a b hz

/-- Settles O22: the fault of R154 leaves what every fault leaves. -/
theorem divByZeroFaults : Obligations.DivByZeroFaults := by
  intro s rs1 rs2 rd a b d ha hb hd hz
  obtain ⟨t, ht, ⟨hregs, hrem, heq⟩, hprog, hpc, hstop⟩ := s.raised_takesFault (f := .divZero) (by decide)
  exact ⟨t, (execDiv_zero ha hb hd hz).trans ht, hregs, hrem, heq, hpc, hstop, hprog⟩

/-! ### Sources before destinations -/

section
variable {s t : State} {rs1 rs2 rd rd' : Byte} {d d' : Fin 32}

/-- The ADD, SUB, MUL form writes the same value to whichever destination (R157). -/
theorem State.arith_any_destination {op : Int → Int → Int} (hd : rd.toNat = d.val) (hd' : rd'.toNat = d'.val)
    (h : s.arith op rs1 rs2 rd = .next t) (ht : t.faulted = false) :
    ∃ t', s.arith op rs1 rs2 rd' = .next t' ∧ t'.reg d' = t.reg d ∧ t'.rem = t.rem := by
  rcases s.arith_cases op rs1 rs2 rd with ⟨-, h'⟩ | ⟨a, b, e, ⟨ha, hb, he⟩, ⟨hv, h'⟩ | ⟨-, -, h'⟩⟩ <;>
    cases h'.symm.trans h
  · exact nomatch ht
  · obtain rfl : e = d := Fin.ext (he.symm.trans hd)
    refine ⟨_, State.arith_valid ha hb hd' (hv.imp_left fits32_iff.mp), ?_, rfl⟩
    exact (s.reg_setReg_same d' _).trans (s.reg_setReg_same e _).symm
  · exact nomatch ht

/-- DIV writes the same quotient to whichever destination, and the same remainder (R157). -/
theorem execDiv_any_destination (hd : rd.toNat = d.val) (hd' : rd'.toNat = d'.val)
    (h : execDiv rs1 rs2 rd s = .next t) (ht : t.faulted = false) :
    ∃ t', execDiv rs1 rs2 rd' s = .next t' ∧ t'.reg d' = t.reg d ∧ t'.rem = t.rem := by
  rcases execDiv_cases s rs1 rs2 rd with
    ⟨-, h'⟩ | ⟨a, b, e, ⟨ha, hb, he⟩, ⟨-, h'⟩ | ⟨-, -, -, h'⟩ | ⟨hz, hv, h'⟩⟩ <;> cases h'.symm.trans h
  · exact nomatch ht
  · exact nomatch ht
  · exact nomatch ht
  · obtain rfl : e = d := Fin.ext (he.symm.trans hd)
    refine ⟨_, execDiv_valid ha hb hd' hz (hv.imp_left fits32_iff.mp), ?_, rfl⟩
    exact (State.reg_setReg_same _ d' _).trans (s.reg_setReg_same e _).symm

end

/-- R157's first example. -/
theorem exec_add_same_register {s : State} (h : s.sreg 0 = 3) : ∃ t, exec (.add 0 0 0) s = .next t ∧ t.sreg 0 = 6 := by
  have hfits : Fits (s.sreg 0 + s.sreg 0) := by rw [h]; decide
  obtain ⟨t, ht, ⟨-, hval⟩, -⟩ := addSubMulComplete.1 s 0 0 0 0 0 0 rfl rfl rfl (.inl hfits)
  exact ⟨t, ht, by rw [hval hfits, h]; rfl⟩

/-- R157's second example. -/
theorem exec_div_onto_divisor {s : State} (h1 : s.sreg 1 = 10) (h2 : s.sreg 2 = 4) :
    ∃ t, exec (.div 1 2 2) s = .next t ∧ t.sreg 2 = 2 ∧ t.rem = 2 := by
  have hdiv : TruncDiv (s.sreg 1) (s.sreg 2) 2 2 := by rw [h1, h2]; decide
  have hfits : Fits 2 := by decide
  obtain ⟨t, ht, ⟨-, hval⟩, hrem, -⟩ :=
    divCompletes s 1 2 2 1 2 2 2 2 rfl rfl rfl (by rw [h2]; decide) hdiv (.inl hfits)
  exact ⟨t, ht, hval hfits, BitVec.eq_of_toInt_eq hrem⟩

/-- Settles O25. -/
theorem sourcesReadBeforeWrite : Obligations.SourcesReadBeforeWrite := by
  refine ⟨fun s t rs1 rs2 rd rd' d d' mk hmk hd hd' h ht => ?_, fun _ => exec_add_same_register,
    fun _ => exec_div_onto_divisor⟩
  rcases hmk with rfl | rfl | rfl | rfl
  · exact State.arith_any_destination hd hd' h ht
  · exact State.arith_any_destination hd hd' h ht
  · exact State.arith_any_destination hd hd' h ht
  · exact execDiv_any_destination hd hd' h ht

/-! ### The flag -/

section
variable (s : State) (b : Bool)

theorem State.arith_setEq (op : Int → Int → Int) (rs1 rs2 rd : Byte) :
    (s.setEq b).arith op rs1 rs2 rd = mapNext (fun t => t.setEq b) (s.arith op rs1 rs2 rd) :=
  withReg_mapNext rs1 rfl fun i => withReg_mapNext rs2 rfl fun j => withReg_mapNext rd rfl fun _ =>
    narrow_mapNext (op (s.sreg i) (s.sreg j)) rfl rfl fun _ => rfl

theorem execDiv_setEq (rs1 rs2 rd : Byte) :
    execDiv rs1 rs2 rd (s.setEq b) = mapNext (fun t => t.setEq b) (execDiv rs1 rs2 rd s) :=
  withReg_mapNext rs1 rfl fun i => withReg_mapNext rs2 rfl fun j => withReg_mapNext rd rfl fun _ =>
    ite_mapNext rfl (narrow_mapNext (tdiv (s.sreg i) (s.sreg j)) rfl rfl fun _ => rfl)

/-- An arithmetic instruction carries the flag it found through (R158). -/
theorem exec_setEq_of_arithmetic {i : Instr} (hi : i.opcode ∈ [Opcode.add, .sub, .mul, .div]) :
    exec i (s.setEq b) = mapNext (fun t => t.setEq b) (exec i s) := by
  cases i with
  | add | sub | mul => exact s.arith_setEq b ..
  | div => exact execDiv_setEq s b ..
  | _ => exact absurd hi (by simp [Instr.opcode])

end

/-- Settles O26: only a comparison changes `eq`, and only DIV `rem`. -/
theorem arithmeticLeavesTheFlag : Obligations.ArithmeticLeavesTheFlag := by
  intro i s t hi h
  have he : ExecEffect i s t := execEffect_of_next h
  refine ⟨?_, fun b => by rw [exec_setEq_of_arithmetic s b hi, h, mapNext], fun hdiv => ?_⟩
  · by_contra hne
    have hdisjoint : ∀ op ∈ [Opcode.add, .sub, .mul, .div],
        op ∉ [Opcode.equal, .notEqual, .lessThan, .greaterThan, .lessOrEqual, .greaterOrEqual] := by decide
    exact hdisjoint _ hi (he.changes_eq hne).2
  · by_contra hne
    exact hdiv (Instr.opcode_eq_div.mpr (he.changes_rem hne).1)

end Sys2Proof.Machine
end

section
/-! PROOFS. The four jumps (spec/43_jumps.md): their completions, by `exec` and as one Execute-one sees it, with the faults of
JUMP-ABSOLUTE and JUMP-BACKWARD. -/

namespace Sys2Proof.Machine

open Sys2Proof.Claims

/-! ### The shared form -/

/-- The form of the jumps that write the pc: one index check, the register value, the exact target `f` of it (R105, R170). -/
def State.jumpBy (s : State) (ra : Byte) (f : Int → Int) : Host.Outcome State Fault Refusal :=
  withReg ra s fun r => s.withJumpValue r fun v => s.jumpTo (f v)

theorem exec_jumpAbsolute (ra : Byte) (s : State) : exec (.jumpAbsolute ra) s = s.jumpBy ra fun v => v := rfl

theorem exec_jumpForward (ra : Byte) (s : State) :
    exec (.jumpForward ra) s = s.jumpBy ra fun v => (s.pc.toNat : Int) + 2 + v := rfl

theorem exec_jumpBackward (ra : Byte) (s : State) :
    exec (.jumpBackward ra) s = s.jumpBy ra fun v => (s.pc.toNat : Int) + 2 - v := rfl

theorem exec_jumpIfEqual_taken {s : State} (h : s.eq = true) (ra : Byte) :
    exec (.jumpIfEqual ra) s = s.jumpBy ra fun v => v :=
  execJumpIfEqual_taken h ra

theorem exec_jumpIfEqual_not_taken {s : State} (h : s.eq = false) {ra : Byte} {r : Fin 32} (hr : ra.toNat = r.val) :
    exec (.jumpIfEqual ra) s = .next (s.advance 2).resume :=
  (execJumpIfEqual_not_taken h ra).trans (withReg_valid hr)

/-- Writing the pc and resuming changes nothing else (R108). -/
theorem State.jumpsTo_setPc_resume (s : State) {t : Int} (h0 : 0 ≤ t) (h1 : t ≤ 4294967295) :
    JumpsTo (.next (s.setPc (BitVec.ofInt 32 t)).resume) s t :=
  ⟨_, rfl, toNat_ofInt_target h0 h1, ⟨fun _ => rfl, rfl, rfl⟩, State.resume_continues _, fun _ => rfl, rfl, rfl⟩

section
variable {s : State} {ra : Byte} {r : Fin 32} {f : Int → Int}

theorem State.jumpBy_badIndex (h : 31 < ra.toNat) : s.jumpBy ra f = s.raised .regIndex := withReg_invalid h

/-- With a valid index, a jump goes to its exact target or raises F_BAD_JUMP (R170, R224). -/
theorem State.jumpBy_valid (hr : ra.toNat = r.val) :
    if 0 ≤ s.sreg r ∧ 0 ≤ f (s.sreg r) ∧ f (s.sreg r) ≤ 4294967295 then JumpsTo (s.jumpBy ra f) s (f (s.sreg r))
    else TakesFault (s.jumpBy ra f) s .badJump := by
  unfold State.jumpBy
  rcases s.jump_cases ra f with ⟨hbad, -⟩ | ⟨r', hr', ⟨hv, h⟩ | ⟨hv, h⟩⟩
  · omega
  · obtain rfl : r = r' := Fin.ext (hr.symm.trans hr')
    rw [if_pos hv, h]
    exact s.jumpsTo_setPc_resume hv.2.1 hv.2.2
  · obtain rfl : r = r' := Fin.ext (hr.symm.trans hr')
    rw [if_neg hv, h]
    exact s.raised_takesFault (by decide)

theorem State.jumpBy_completes (hr : ra.toNat = r.val) (h : 0 ≤ s.sreg r) (h0 : 0 ≤ f (s.sreg r))
    (h1 : f (s.sreg r) ≤ 4294967295) : JumpsTo (s.jumpBy ra f) s (f (s.sreg r)) := by
  have hj := State.jumpBy_valid (s := s) (f := f) hr
  rwa [if_pos ⟨h, h0, h1⟩] at hj

/-- A jump to the register's own value never passes the top of the pc (R160, R163). -/
theorem State.jumpBy_value_completes (hr : ra.toNat = r.val) (h : 0 ≤ s.sreg r) :
    JumpsTo (s.jumpBy ra fun v => v) s (s.sreg r) :=
  have hmax : s.sreg r ≤ 2147483647 := (s.sreg_bounds r).2
  State.jumpBy_completes hr h h (by omega)

end

/-! ### By `exec` -/

/-- Settles O27. -/
theorem unconditionalJumpsComplete : Obligations.UnconditionalJumpsComplete := by
  intro s ra r hr h
  refine ⟨?_, fun hmax => ?_, fun hmin hmax => ?_⟩
  · rw [exec_jumpAbsolute]
    exact State.jumpBy_value_completes hr h
  · rw [exec_jumpForward]
    exact State.jumpBy_completes hr h (by omega) hmax
  · rw [exec_jumpBackward]
    exact State.jumpBy_completes hr h (by omega) hmax

/-- Settles O29: taken, it is the jump to the register's value; not taken, the sequential advance. -/
theorem jumpIfEqualCompletes : Obligations.JumpIfEqualCompletes := by
  intro s ra r hr
  refine ⟨fun heq h => ?_, fun heq => ?_⟩
  · rw [exec_jumpIfEqual_taken heq]
    exact State.jumpBy_value_completes hr h
  · exact ⟨_, exec_jumpIfEqual_not_taken heq hr, rfl, ⟨fun _ => rfl, rfl, rfl⟩, State.resume_continues _,
      fun _ => rfl, rfl, rfl⟩

/-! ### As one Execute-one sees it -/

/-- The step at an unconditional jump: the operand byte, its index, and its target are checked in this order (R104, R105,
R170). -/
theorem jumpRule_of_exec_eq_jumpBy {b0 : Byte} {mk : Byte → Instr} {target : State → Int → Int}
    (henc : ∀ ra, (mk ra).encode = some [b0, ra]) (hop : operandCount (decodeOpcode b0) = 1)
    (hdec : ∀ ra, decode [b0, ra] = .instr (mk ra) []) (h : ∀ ra s, exec (mk ra) s = s.jumpBy ra (target s)) :
    JumpRule b0 mk target := by
  refine ⟨henc, fun s hs => ⟨fun hlen => ?_, fun b1 hb => ?_⟩⟩
  · rw [step_of_truncated (State.fetch_truncated hs (by omega))]
    exact s.raised_takesFault (by decide)
  · have hstep : step s = s.jumpBy b1 (target s) :=
      (step_of_instr (State.fetch_of_decode_operands hs hb hop.symm (hdec b1))).trans (h b1 s)
    rw [hstep]
    refine ⟨fun hbad => ?_, fun r hr => State.jumpBy_valid hr⟩
    rw [State.jumpBy_badIndex hbad]
    exact s.raised_takesFault (by decide)

/-- Settles O30. -/
theorem jumpAbsoluteRule : Obligations.JumpAbsoluteRule :=
  jumpRule_of_exec_eq_jumpBy (fun _ => rfl) rfl (fun _ => rfl) exec_jumpAbsolute

/-- Settles O31: the step is `exec` of the JUMP-FORWARD fetched. -/
theorem jumpForwardRule : Obligations.JumpForwardRule := by
  refine ⟨fun _ => rfl, fun s hs b1 r hb hr h hmax => ?_⟩
  have hf : s.fetch = .instr (.jumpForward b1) := State.fetch_of_decode_operands hs hb rfl rfl
  rw [step_of_instr hf]
  obtain ⟨-, hforward, -⟩ := unconditionalJumpsComplete s b1 r hr h
  exact hforward hmax

/-- Settles O32. -/
theorem jumpBackwardRule : Obligations.JumpBackwardRule :=
  jumpRule_of_exec_eq_jumpBy (fun _ => rfl) rfl (fun _ => rfl) exec_jumpBackward

/-- Settles O33: the step is `exec` of the JUMP-IF-EQUAL fetched; in a good state pc + 2 does not wrap. -/
theorem jumpIfEqualRule : Obligations.JumpIfEqualRule := by
  refine ⟨fun _ => rfl, fun s hs b1 r hb hr => ?_⟩
  have hf : s.fetch = .instr (.jumpIfEqual b1) := State.fetch_of_decode_operands hs hb rfl rfl
  rw [step_of_instr hf]
  obtain ⟨htaken, hnot⟩ := jumpIfEqualCompletes s b1 r hr
  refine ⟨htaken, fun heq => ?_⟩
  obtain ⟨t, ht, hpc, hrest⟩ := hnot heq
  have hadv : (s.pc + 2).toNat = s.pc.toNat + 2 := State.toNat_advance_length hs.1 hf
  exact ⟨t, ht, by rw [hpc, hadv]; rfl, hrest⟩

end Sys2Proof.Machine
end

section
/-! PROOFS. The six comparisons (spec/44_compare.md), one proof for all of them by their relation: their completions, by `exec`
and as one Execute-one sees it, how the relations hang together, and the flag they overwrite. -/

namespace Sys2Proof.Machine

open Sys2Proof.Claims

/-! ### The comparisons by their relation -/

/-- The comparison that tests a relation (R180 to R185). -/
def Relation.instr : Relation → Byte → Byte → Byte → Instr
  | .eq => .equal
  | .ne => .notEqual
  | .lt => .lessThan
  | .gt => .greaterThan
  | .le => .lessOrEqual
  | .ge => .greaterOrEqual

/-- Its opcode byte (R81). -/
def Relation.opcodeByte : Relation → Byte
  | .eq => 18
  | .ne => 19
  | .lt => 20
  | .gt => 21
  | .le => 22
  | .ge => 23

/-- The relation as a proposition about signed values (R190). -/
def Relation.rel : Relation → Int → Int → Prop
  | .eq => fun a b => a = b
  | .ne => fun a b => a ≠ b
  | .lt => fun a b => a < b
  | .gt => fun a b => a > b
  | .le => fun a b => a ≤ b
  | .ge => fun a b => a ≥ b

section
variable (r : Relation)

theorem Relation.holds_iff_rel (a b : Int) : r.holds a b = true ↔ r.rel a b := by
  cases r <;> exact decide_eq_true_iff

theorem exec_comparison (rs1 rs2 pad : Byte) (s : State) : exec (r.instr rs1 rs2 pad) s = s.compare r rs1 rs2 := by
  cases r <;> rfl

theorem encode_comparison (rs1 rs2 pad : Byte) :
    (r.instr rs1 rs2 pad).encode = some [r.opcodeByte, rs1, rs2, pad] := by
  cases r <;> rfl

theorem decode_comparison (rs1 rs2 pad : Byte) :
    decode [r.opcodeByte, rs1, rs2, pad] = .instr (r.instr rs1 rs2 pad) [] := by
  cases r <;> rfl

theorem operandCount_comparison : operandCount (decodeOpcode r.opcodeByte) = 3 := by
  cases r <;> rfl

theorem length_comparison (rs1 rs2 pad : Byte) : (r.instr rs1 rs2 pad).length = 4 := by
  cases r <;> rfl

end

/-- The relations name every comparison there is (R180 to R185). -/
theorem exists_relation_of_opcode {i : Instr}
    (hi : i.opcode ∈ [Opcode.equal, .notEqual, .lessThan, .greaterThan, .lessOrEqual, .greaterOrEqual]) :
    ∃ (r : Relation) (rs1 rs2 pad : Byte), i = r.instr rs1 rs2 pad := by
  cases i with
  | equal => exact ⟨.eq, _, _, _, rfl⟩
  | notEqual => exact ⟨.ne, _, _, _, rfl⟩
  | lessThan => exact ⟨.lt, _, _, _, rfl⟩
  | greaterThan => exact ⟨.gt, _, _, _, rfl⟩
  | lessOrEqual => exact ⟨.le, _, _, _, rfl⟩
  | greaterOrEqual => exact ⟨.ge, _, _, _, rfl⟩
  | _ => exact absurd hi (by simp [Instr.opcode])

/-! ### Execution with valid indices -/

/-- A comparison whose operand bytes name registers writes the truth value of its relation (R105, R190). -/
theorem exec_comparison_valid (r : Relation) (s : State) {rs1 rs2 : Byte} {a b : Fin 32} (ha : rs1.toNat = a.val)
    (hb : rs2.toNat = b.val) (pad : Byte) :
    exec (r.instr rs1 rs2 pad) s = .next ((s.setEq (r.holds (s.sreg a) (s.sreg b))).advance 4).resume := by
  rw [exec_comparison, State.compare, withReg_valid ha, withReg_valid hb, State.finish]

/-- Writing `eq`, advancing and resuming changes nothing else (R107, R108, R191). -/
theorem State.setEq_advance_resume_frame (s : State) (v : Bool) (n : Nat) {t : State}
    (ht : t = ((s.setEq v).advance n).resume) :
    t.eq = v ∧ (∀ j, t.reg j = s.reg j) ∧ t.rem = s.rem ∧ t.pc = s.pc + BitVec.ofNat 32 n ∧ t.Continues ∧
      s.SameProgram t := by
  subst ht
  exact ⟨rfl, fun _ => rfl, rfl, rfl, State.resume_continues _, fun _ => rfl, rfl, rfl⟩

theorem compareCompletes (r : Relation) : CompareCompletes r.instr r.rel := by
  intro s rs1 rs2 pad a b ha hb
  obtain ⟨heq, hframe⟩ := s.setEq_advance_resume_frame (r.holds (s.sreg a) (s.sreg b)) 4 rfl
  refine ⟨_, exec_comparison_valid r s ha hb pad, ?_, hframe⟩
  rw [heq]
  exact r.holds_iff_rel _ _

/-- Settles O34. -/
theorem comparisonsComplete : Obligations.ComparisonsComplete :=
  ⟨compareCompletes .eq, compareCompletes .ne, compareCompletes .lt, compareCompletes .gt, compareCompletes .le,
    compareCompletes .ge⟩

/-! ### As one Execute-one sees it -/

/-- The step at a comparison is the `exec` of what its bytes decode to; in a good state pc + 4 does not wrap. -/
theorem compareRule (r : Relation) : CompareRule r.opcodeByte r.instr r.rel := by
  refine ⟨encode_comparison r, fun s hs b1 b2 b3 a b hbytes ha hb => ?_⟩
  have hf : s.fetch = .instr (r.instr b1 b2 b3) :=
    State.fetch_of_decode_operands hs hbytes (operandCount_comparison r).symm (decode_comparison r b1 b2 b3)
  have hadv := State.toNat_advance_length hs.1 hf
  rw [length_comparison] at hadv
  obtain ⟨t, ht, heq, hregs, hrem, hpc, hcont, hprog⟩ := compareCompletes r s b1 b2 b3 a b ha hb
  refine ⟨t, (step_of_instr hf).trans ht, heq, hregs, hrem, ?_, hcont, hprog⟩
  rw [hpc]
  exact hadv

/-- Settles O35. -/
theorem comparisonRules : Obligations.ComparisonRules :=
  ⟨compareRule .eq, compareRule .ne, compareRule .lt, compareRule .gt, compareRule .le, compareRule .ge⟩

/-! ### How the relations hang together (R190) -/

section
variable (a b : Int)

theorem Relation.holds_trichotomy :
    (Relation.lt.holds a b = true ∧ Relation.eq.holds a b = false ∧ Relation.gt.holds a b = false) ∨
      (Relation.lt.holds a b = false ∧ Relation.eq.holds a b = true ∧ Relation.gt.holds a b = false) ∨
      (Relation.lt.holds a b = false ∧ Relation.eq.holds a b = false ∧ Relation.gt.holds a b = true) := by
  simp only [Relation.holds, decide_eq_true_eq, decide_eq_false_iff_not]
  omega

theorem Relation.holds_le_eq_or : Relation.le.holds a b = (Relation.lt.holds a b || Relation.eq.holds a b) := by
  simp only [Relation.holds, le_iff_lt_or_eq, Bool.decide_or]

theorem Relation.holds_ge_eq_or : Relation.ge.holds a b = (Relation.gt.holds a b || Relation.eq.holds a b) := by
  simp only [Relation.holds, ge_iff_le, gt_iff_lt, le_iff_lt_or_eq, eq_comm, Bool.decide_or]

theorem Relation.holds_ne_eq_not : Relation.ne.holds a b = !Relation.eq.holds a b := decide_not

end

/-- Settles O36: the six comparisons complete, and the flags they leave are the six relations on the same two values. -/
theorem comparisonsAreTrichotomous : Obligations.ComparisonsAreTrichotomous := by
  intro s rs1 rs2 pad a b ha hb
  have hexec := fun r : Relation => exec_comparison_valid r s ha hb pad
  exact ⟨_, _, _, _, _, _, hexec .lt, hexec .eq, hexec .gt, hexec .le, hexec .ge, hexec .ne,
    Relation.holds_iff_rel .lt _ _, Relation.holds_trichotomy _ _, Relation.holds_le_eq_or _ _,
    Relation.holds_ge_eq_or _ _, Relation.holds_ne_eq_not _ _⟩

/-! ### The flag before and after (R191) -/

/-- A comparison that does not fault has left the truth value of its relation on the registers its operand bytes name. -/
theorem comparison_next {r : Relation} {s t : State} {rs1 rs2 pad : Byte} (h : exec (r.instr rs1 rs2 pad) s = .next t)
    (ht : t.faulted = false) :
    ∃ a b : Fin 32, rs1.toNat = a.val ∧ rs2.toNat = b.val ∧
      t = ((s.setEq (r.holds (s.sreg a) (s.sreg b))).advance 4).resume := by
  rw [exec_comparison] at h
  rcases s.compare_cases r rs1 rs2 with ⟨-, hc⟩ | ⟨a, b, ⟨ha, hb⟩, hc⟩ <;> cases hc.symm.trans h
  · exact nomatch ht
  · exact ⟨a, b, ha, hb, rfl⟩

/-- Settles O37: a comparison reads the registers alone; LESS-THAN leaves them, and JUMP-IF-EQUAL goes by the flag it left. -/
theorem comparisonOverwritesFlag : Obligations.ComparisonOverwritesFlag := by
  refine ⟨fun i s t v hi h ht => ?_, fun s t rs1 rs2 pad ra a b r ha hb hr hnonneg h => ?_⟩
  · obtain ⟨rel, rs1, rs2, pad, rfl⟩ := exists_relation_of_opcode hi
    obtain ⟨a, b, ha, hb, htv⟩ := comparison_next h ht
    obtain ⟨-, hregs, hrem, -, -, hprog⟩ := s.setEq_advance_resume_frame _ 4 htv
    refine ⟨?_, hregs, hrem, hprog⟩
    rw [exec_comparison_valid rel (s.setEq v) ha hb pad, htv]
    rfl
  · obtain ⟨t', ht', heq, hregs, -⟩ := compareCompletes .lt s rs1 rs2 pad a b ha hb
    cases ht'.symm.trans h
    obtain ⟨htaken, hnot⟩ := jumpIfEqualCompletes t ra r hr
    have hval : t.sreg r = s.sreg r := congrArg BitVec.toInt (hregs r)
    by_cases hlt : s.sreg a < s.sreg b
    · obtain ⟨u, hu, hpc, -⟩ := htaken (heq.mpr hlt) (hval ▸ hnonneg)
      exact ⟨u, hu, fun _ => hpc.trans hval, fun hge => absurd hlt hge⟩
    · obtain ⟨u, hu, hpc, -⟩ := hnot (Bool.eq_false_iff.mpr fun htrue => hlt (heq.mp htrue))
      exact ⟨u, hu, fun hlt' => absurd hlt' hlt, fun _ => hpc⟩

end Sys2Proof.Machine
end

section
/-! PROOFS. HALT, NOP, PRINT and ILLEGAL (spec/45_system.md): each consumes its one byte and ends in a status of its own, by `exec`
and as one Execute-one sees it. -/

namespace Sys2Proof.Machine

open Sys2Proof.Claims

/-! ### By `exec` -/

/-- In every state the instruction consumes one byte, changes no data and no program byte, and leaves a state with `P`. -/
def CompletesInOneByte (i : Instr) (P : State → Prop) : Prop :=
  ∀ s : State, ∃ t, exec i s = .next t ∧ s.SameData t ∧ s.SameProgram t ∧ t.pc = s.pc + 1 ∧ P t

/-- An instruction that stops after its one byte with a cause that is no fault leaves that cause and nothing else (R212). -/
theorem completesInOneByte_of_exec_eq_stop {i : Instr} {c : StopCause} (hc : c ≠ .none) (hf : c.isFault = false)
    (h : ∀ s, exec i s = .next ((s.advance 1).stop c)) :
    CompletesInOneByte i fun t => t.StopsWith c ∧ t.faulted = false :=
  fun s => ⟨_, h s, ⟨fun _ => rfl, rfl, rfl⟩, ⟨fun _ => rfl, rfl, rfl⟩, rfl, ⟨rfl, rfl, State.signal_stop _ hc⟩, hf⟩

theorem halt_completes : CompletesInOneByte .halt fun t => t.StopsWith .halt ∧ t.faulted = false :=
  completesInOneByte_of_exec_eq_stop (by decide) rfl fun _ => rfl

theorem nop_completes : CompletesInOneByte .nop fun t => t.Continues :=
  fun _ => ⟨_, rfl, ⟨fun _ => rfl, rfl, rfl⟩, ⟨fun _ => rfl, rfl, rfl⟩, rfl, State.resume_continues _⟩

theorem print_completes : CompletesInOneByte .print fun t => t.StopsWith .illegal ∧ t.faulted = false :=
  completesInOneByte_of_exec_eq_stop (by decide) rfl fun _ => rfl

theorem illegal_completes (byte : Byte) :
    CompletesInOneByte (.illegal byte) fun t => t.StopsWith .illegal ∧ t.faulted = false :=
  completesInOneByte_of_exec_eq_stop (by decide) rfl fun _ => rfl

/-- PRINT and ILLEGAL are the two labels of an unrecognised byte (R82, R83). -/
theorem illegalInstr_completes (b0 : Byte) :
    CompletesInOneByte (illegalInstr b0) fun t => t.StopsWith .illegal ∧ t.faulted = false := by
  unfold illegalInstr
  split
  · exact print_completes
  · exact illegal_completes b0

/-! ### As one Execute-one sees it -/

/-- The step at a byte that is a whole instruction is that instruction's `exec`; in a good state pc + 1 does not wrap. -/
theorem oneByteRule_of_completes {b0 : Byte} {i : Instr} {P : State → Prop} (hdec : decode [b0] = .instr i [])
    (h : CompletesInOneByte i P) : OneByteRule b0 P := by
  intro s hs
  obtain ⟨hop, hbytes, -⟩ := decodeConsumesTheLength _ _ _ _ hdec
  have hlen : i.length = 1 := hbytes.symm
  have hcount : operandCount (decodeOpcode b0) = 0 := by
    rw [Instr.length, hop] at hlen
    omega
  have hf : s.fetch = .instr i := State.fetch_of_decode_operands (bs := []) hs rfl hcount.symm hdec
  have hadv := State.toNat_advance_length hs.1 hf
  obtain ⟨t, ht, hdata, hprog, hpc, hP⟩ := h s
  refine ⟨t, (step_of_instr hf).trans ht, hdata, hprog, ?_, hP⟩
  rw [hlen] at hadv
  rw [hpc]
  exact hadv

/-- A byte with the decoder value ILLEGAL is a whole instruction by itself (R82). -/
theorem decode_of_igl {b0 : Byte} (h : decodeOpcode b0 = .igl) : decode [b0] = .instr (illegalInstr b0) [] := by
  rw [decode, h, decodeOperands]

/-! ### The obligations -/

/-- Settles O38. -/
theorem systemInstructionsComplete : Obligations.SystemInstructionsComplete :=
  fun s => ⟨halt_completes s, nop_completes s, print_completes s, fun byte => illegal_completes byte s⟩

/-- Settles O39. -/
theorem haltRule : Obligations.HaltRule := ⟨rfl, oneByteRule_of_completes rfl halt_completes⟩

/-- Settles O40. -/
theorem nopRule : Obligations.NopRule := ⟨rfl, oneByteRule_of_completes rfl nop_completes⟩

/-- Settles O41: every byte outside the table's 17 decodes to ILLEGAL, and so to PRINT or ILLEGAL by itself. -/
theorem illegalAndPrintRule : Obligations.IllegalAndPrintRule :=
  fun b0 hb => oneByteRule_of_completes (decode_of_igl ((decodeOpcode_eq_igl_iff b0).mpr hb)) (illegalInstr_completes b0)

end Sys2Proof.Machine
end

section
/-! PROOFS. Every instruction answers a next state (R210). -/

namespace Sys2Proof.Machine

/-- Settles O42: the next state is the one whose effect `exec_hasEffect` bounds. -/
theorem everyInstructionAnswersNext : Obligations.EveryInstructionAnswersNext := by
  intro i s
  obtain ⟨t, ht, -⟩ := exec_hasEffect i s
  exact ⟨t, ht⟩

end Sys2Proof.Machine
end

section
/-! PROOFS. Initialize and Construct (spec/70_reset_and_hazards.md R251, spec/40_sequencer_and_host.md R119, R120): the values of
R45. -/

namespace Sys2Proof.Machine

/-- A register no instruction has written reads 0 (R45). -/
@[simp] theorem State.sreg_initial (c : Config) (i : Fin 32) : (State.initial c).sreg i = 0 := by
  have hreg : (State.initial c).reg i = 0 := Vector.getElem_replicate i.isLt
  rw [State.sreg, hreg, BitVec.ofNat_eq_ofNat, BitVec.toInt_zero]

theorem command_initEngine (s : State) : command .initEngine s = .next (State.initial s.cfg) := rfl

/-- Construct is Initialize (R120). -/
theorem command_construct (s : State) : command .construct s = .next (State.initial s.cfg) := rfl

/-- Settles O53: both operations answer `State.initial`, whose fields are the values of R45; `State.reset` is left by
Initialize in any state of the standard parameters, itself for one. -/
theorem initializeGivesResetValues : Obligations.InitializeGivesResetValues :=
  ⟨fun s => ⟨State.initial s.cfg, command_initEngine s, command_construct s, State.sreg_initial s.cfg,
      State.initial_pc _, State.initial_rem _, State.initial_eq _, rfl, fun _ => rfl, State.initial_runState _,
      State.initial_stopCause _⟩,
    State.reset, command_initEngine State.reset⟩

end Sys2Proof.Machine
end

section
/-! PROOFS. The words of the encoding tables (R71 to R76, R81). -/

namespace Sys2Proof

/-- Settles O1: each word is evaluated by the decoder. -/
theorem specWordsDecode : Obligations.SpecWordsDecode :=
  ⟨rfl, rfl, rfl, rfl, rfl, rfl, rfl, rfl⟩

end Sys2Proof
end

section
/-! PROOFS. Faults and causes (spec/60_exceptions.md): what an instruction may leave in `stop_cause`, read off the forms of the
instructions; then the step by its cause, and the precision of its faults (R230). -/

namespace Sys2Proof.Machine

/-! ### The causes an instruction may leave -/

/-- The cause `c` is one that `i`, executed in `s`, may leave, and what `c` says of `i` and `s` holds (R211 to R215, R221 to
R225). -/
def MayLeave (i : Instr) (s : State) : StopCause → Prop
  | .none => True
  | .halt => i = .halt
  | .illegal => i.opcode = .igl
  | .atEnd | .truncated => False
  | .regIndex => ∃ b ∈ i.indexBytes, 31 < b.toNat
  | .divZero => ∃ rs1 rs2 rd, i = .div rs1 rs2 rd
  | .badJump => i.opcode ∈ [Opcode.jumpAbsolute, .jumpForward, .jumpBackward, .jumpIfEqual]
  | .overflow => s.cfg.arithOverflow = .fault ∧ i.opcode ∈ [Opcode.add, .sub, .mul, .div]

section
variable {i : Instr} {s t : State}

theorem mayLeave_withReg {b : Byte} {k : Fin 32 → Host.Outcome State Fault Refusal} (hb : b ∈ i.indexBytes)
    (hk : ∀ r, k r = .next t → MayLeave i s t.stopCause) (h : withReg b s k = .next t) : MayLeave i s t.stopCause := by
  rcases withReg_cases b s k with ⟨r, -, h'⟩ | ⟨hbad, h'⟩
  · exact hk r (h'.symm.trans h)
  · cases h'.symm.trans h
    exact ⟨b, hb, hbad⟩

theorem mayLeave_narrow {v : Int} {k : Word → Host.Outcome State Fault Refusal}
    (hi : i.opcode ∈ [Opcode.add, .sub, .mul, .div]) (hk : ∀ w, k w = .next t → MayLeave i s t.stopCause)
    (h : s.narrow v k = .next t) : MayLeave i s t.stopCause := by
  rcases s.narrow_cases v k with ⟨-, h'⟩ | ⟨-, hm, h'⟩
  · exact hk _ (h'.symm.trans h)
  · cases h'.symm.trans h
    exact ⟨hm, hi⟩

theorem mayLeave_finish {u : State} {n : Nat} (h : u.finish n = .next t) : MayLeave i s t.stopCause := by
  cases h
  trivial

theorem mayLeave_arith {op : Int → Int → Int} {rs1 rs2 rd : Byte} (hidx : i.indexBytes = [rs1, rs2, rd])
    (hi : i.opcode ∈ [Opcode.add, .sub, .mul, .div]) (h : s.arith op rs1 rs2 rd = .next t) :
    MayLeave i s t.stopCause :=
  mayLeave_withReg (by simp [hidx]) (fun _ => mayLeave_withReg (by simp [hidx]) fun _ =>
    mayLeave_withReg (by simp [hidx]) fun _ => mayLeave_narrow hi fun _ => mayLeave_finish) h

theorem mayLeave_div {rs1 rs2 rd : Byte} (h : execDiv rs1 rs2 rd s = .next t) :
    MayLeave (.div rs1 rs2 rd) s t.stopCause := by
  have hidx : (Instr.div rs1 rs2 rd).indexBytes = [rs1, rs2, rd] := rfl
  refine mayLeave_withReg (by simp [hidx]) (fun _ => mayLeave_withReg (by simp [hidx]) fun b =>
    mayLeave_withReg (by simp [hidx]) fun _ h => ?_) h
  by_cases hz : s.sreg b = 0
  · rw [if_pos hz] at h
    cases h
    exact ⟨rs1, rs2, rd, rfl⟩
  · rw [if_neg hz] at h
    exact mayLeave_narrow (by simp [Instr.opcode]) (fun _ => mayLeave_finish) h

theorem mayLeave_compare {r : Relation} {rs1 rs2 : Byte} (hidx : i.indexBytes = [rs1, rs2])
    (h : s.compare r rs1 rs2 = .next t) : MayLeave i s t.stopCause :=
  mayLeave_withReg (by simp [hidx]) (fun _ => mayLeave_withReg (by simp [hidx]) fun _ => mayLeave_finish) h

theorem mayLeave_jumpBy {ra : Byte} {f : Int → Int} (hidx : i.indexBytes = [ra])
    (hi : i.opcode ∈ [Opcode.jumpAbsolute, .jumpForward, .jumpBackward, .jumpIfEqual])
    (h : s.jumpBy ra f = .next t) : MayLeave i s t.stopCause := by
  rcases s.jump_cases ra f with ⟨hbad, h'⟩ | ⟨r, -, ⟨-, h'⟩ | ⟨-, h'⟩⟩ <;> cases h'.symm.trans h
  · exact ⟨ra, by simp [hidx], hbad⟩
  · trivial
  · exact hi

theorem mayLeave_jumpIfEqual {ra : Byte} (h : execJumpIfEqual ra s = .next t) :
    MayLeave (.jumpIfEqual ra) s t.stopCause := by
  cases heq : s.eq
  · rw [execJumpIfEqual_not_taken heq] at h
    exact mayLeave_withReg (List.mem_singleton.mpr rfl) (fun _ => mayLeave_finish) h
  · rw [execJumpIfEqual_taken heq] at h
    exact mayLeave_jumpBy rfl (by simp [Instr.opcode]) h

/-- Every instruction leaves only the causes that are its own (R108, R211). -/
theorem mayLeave_of_exec (h : exec i s = .next t) : MayLeave i s t.stopCause := by
  cases i with
  | halt | print | illegal => cases h; rfl
  | nop => exact mayLeave_finish h
  | load => exact mayLeave_withReg (List.mem_singleton.mpr rfl) (fun _ => mayLeave_finish) h
  | add | sub | mul => exact mayLeave_arith rfl (by simp [Instr.opcode]) h
  | div => exact mayLeave_div h
  | jumpAbsolute | jumpForward | jumpBackward => exact mayLeave_jumpBy rfl (by simp [Instr.opcode]) h
  | jumpIfEqual => exact mayLeave_jumpIfEqual h
  | equal | notEqual | lessThan | greaterThan | lessOrEqual | greaterOrEqual => exact mayLeave_compare rfl h

end

/-! ### The step by its cause -/

section
variable {s t : State}

/-- The stage that leaves the cause of a step: stage 1 END, stage 3 F_TRUNCATED, and an instruction one of its own (R102, R104,
R108). -/
theorem step_cause_cases (hf : s.faulted = false) (h : step s = .next t) :
    (s.len ≤ s.pc.toNat ∧ t.stopCause = .atEnd) ∨ (s.fetch = .truncated ∧ t.stopCause = .truncated) ∨
      ∃ i, s.fetch = .instr i ∧ MayLeave i s t.stopCause := by
  by_cases he : s.len ≤ s.pc.toNat
  · cases (step_at_end hf he).symm.trans h
    exact .inl ⟨he, rfl⟩
  rcases State.fetch_cases_of_lt hf (by omega) with hx | hx | ⟨i, hx⟩
  · cases (step_of_truncated hx).symm.trans h
    exact .inr (.inl ⟨hx, rfl⟩)
  · cases (step_of_noByte hx).symm.trans h
  · exact .inr (.inr ⟨i, hx, mayLeave_of_exec ((step_of_instr hx).symm.trans h)⟩)

/-- A cause that is neither END nor F_TRUNCATED is left by the instruction fetched. -/
theorem mayLeave_of_step {c : StopCause} (hf : s.faulted = false) (h : step s = .next t) (hc : t.stopCause = c)
    (hne : c ≠ .atEnd ∧ c ≠ .truncated) : ∃ i, s.fetch = .instr i ∧ MayLeave i s c := by
  subst hc
  rcases step_cause_cases hf h with ⟨-, hc⟩ | ⟨-, hc⟩ | hi
  · exact absurd hc hne.1
  · exact absurd hc hne.2
  · exact hi

theorem step_stopCause_atEnd_iff (hf : s.faulted = false) (h : step s = .next t) :
    t.stopCause = .atEnd ↔ s.len ≤ s.pc.toNat := by
  constructor
  · intro hc
    rcases step_cause_cases hf h with ⟨he, -⟩ | ⟨-, hc'⟩ | ⟨i, -, hm⟩
    · exact he
    · exact nomatch hc'.symm.trans hc
    · rw [hc] at hm
      exact hm.elim
  · intro he
    cases (step_at_end hf he).symm.trans h
    rfl

theorem step_stopCause_truncated_iff (hf : s.faulted = false) (h : step s = .next t) :
    t.stopCause = .truncated ↔ s.fetch = .truncated := by
  constructor
  · intro hc
    rcases step_cause_cases hf h with ⟨-, hc'⟩ | ⟨hx, -⟩ | ⟨i, -, hm⟩
    · exact nomatch hc'.symm.trans hc
    · exact hx
    · rw [hc] at hm
      exact hm.elim
  · intro hx
    cases (step_of_truncated hx).symm.trans h
    rfl

theorem step_stopCause_regIndex_iff (hf : s.faulted = false) (h : step s = .next t) :
    t.stopCause = .regIndex ↔ ∃ i, s.fetch = .instr i ∧ ∃ b ∈ i.indexBytes, 31 < b.toNat := by
  constructor
  · exact fun hc => mayLeave_of_step hf h hc (by decide)
  · rintro ⟨i, hx, hbad⟩
    cases ((step_of_instr hx).trans (exec_badIndex i s hbad)).symm.trans h
    rfl

/-- What an instruction leaves when it faults is what R230 says. -/
theorem ExecEffect.faultedFrom {i : Instr} (h : ExecEffect i s t) (ht : t.faulted = true) :
    s.FaultedFrom t t.stopCause := by
  cases h with
  | fault hf => exact s.raiseFault_faultedFrom (by rintro rfl; exact nomatch hf)
  | stop hc => rcases hc with ⟨-, rfl⟩ | ⟨-, rfl⟩ <;> exact nomatch ht
  | goto | write | divide | compare => exact nomatch ht

/-- The signal of a faulted engine (R101). -/
theorem State.signal_of_faulted (h : s.faulted = true) : s.signal = .stop := by
  refine if_neg fun hc => ?_
  rw [State.faulted, hc] at h
  exact nomatch h

end

/-! ### The obligations -/

/-- Settles O50. -/
theorem faultsArePrecise : Obligations.FaultsArePrecise := by
  intro s t hf h ht
  rcases step_cases_of_not_faulted hf h with ⟨-, rfl⟩ | rfl | ⟨i, -, he⟩
  · exact nomatch ht
  · exact s.raiseFault_faultedFrom (by decide)
  · exact he.faultedFrom ht

/-- Settles O51: END and F_TRUNCATED are left before an instruction is reached, every other cause by the instruction fetched. -/
theorem causesAndWhoRaisesThem : Obligations.CausesAndWhoRaisesThem := by
  intro s t hf h
  refine ⟨fun hc => ?_, fun hc => mayLeave_of_step hf h hc (by decide), step_stopCause_atEnd_iff hf h,
    step_stopCause_truncated_iff hf h, step_stopCause_regIndex_iff hf h, fun hc => ?_,
    fun hc => mayLeave_of_step hf h hc (by decide), fun hc => ?_⟩
  · obtain ⟨i, hx, rfl⟩ := mayLeave_of_step hf h hc (by decide)
    exact hx
  · obtain ⟨i, hx, rs1, rs2, rd, rfl⟩ := mayLeave_of_step hf h hc (by decide)
    exact ⟨rs1, rs2, rd, hx⟩
  · obtain ⟨i, hx, hm, hi⟩ := mayLeave_of_step hf h hc (by decide)
    exact ⟨hm, i, hx, hi⟩

/-- Settles O11. -/
theorem missingOperandByteFaults : Obligations.MissingOperandByteFaults := by
  intro s b0 hs hlen
  rw [step_of_truncated (State.fetch_truncated hs hlen)]
  exact s.raised_takesFault (by decide)

/-- Settles O8. -/
theorem faultedEngineChangesNothing : Obligations.FaultedEngineChangesNothing :=
  fun _ hf => ⟨step_faulted hf, State.signal_of_faulted hf⟩

end Sys2Proof.Machine
end

section
/-! PROOFS. The rule of SUB, and F_OVERFLOW (R141, R150, R155, R156). -/

namespace Sys2Proof.Machine

open Sys2Proof.Claims

/-- Settles O19: SUB's completion, in the shared rule of the three-operand instructions. -/
theorem subRule : Obligations.SubRule :=
  arithRule_of_completes (fun _ _ _ => rfl) rfl (fun _ _ _ => rfl) addSubMulComplete.2.1

section
variable {s : State} {rs1 rs2 rd : Byte} {a b d : Fin 32}

/-- Under FAULT a result that does not fit is not narrowed (R156). -/
theorem State.narrow_of_overflow {v : Int} {k : Word → Host.Outcome State Fault Refusal} (hv : ¬ Fits v)
    (hm : s.cfg.arithOverflow = .fault) : s.narrow v k = s.raised .overflow := by
  rcases s.narrow_cases v k with ⟨hfits | hwrap, -⟩ | ⟨-, -, h⟩
  · exact absurd (fits32_iff.mp hfits) hv
  · exact nomatch hwrap.symm.trans hm
  · exact h

/-- The ADD, SUB, MUL form where it overflows (R156). -/
theorem State.arith_takesOverflow {op : Int → Int → Int} (ha : rs1.toNat = a.val) (hb : rs2.toNat = b.val)
    (hd : rd.toNat = d.val) (hm : s.cfg.arithOverflow = .fault) (hv : ¬ Fits (op (s.sreg a) (s.sreg b))) :
    TakesFault (s.arith op rs1 rs2 rd) s .overflow := by
  rw [State.arith, withReg_valid ha, withReg_valid hb, withReg_valid hd, State.narrow_of_overflow hv hm]
  exact s.raised_takesFault (by decide)

/-- DIV where it overflows (R155, R156). -/
theorem execDiv_takesOverflow (ha : rs1.toNat = a.val) (hb : rs2.toNat = b.val) (hd : rd.toNat = d.val)
    (hz : s.sreg b ≠ 0) (hm : s.cfg.arithOverflow = .fault) (hv : ¬ Fits (tdiv (s.sreg a) (s.sreg b))) :
    TakesFault (execDiv rs1 rs2 rd s) s .overflow := by
  rw [execDiv, withReg_valid ha, withReg_valid hb, withReg_valid hd, if_neg hz, State.narrow_of_overflow hv hm]
  exact s.raised_takesFault (by decide)

end

/-- Settles O24: under WRAP, by the cause F_OVERFLOW, which is left under FAULT alone. -/
theorem overflowFaultsOnlyUnderFault : Obligations.OverflowFaultsOnlyUnderFault := by
  refine ⟨fun s rs1 rs2 rd a b d ha hb hd hm => ⟨?_, ?_, ?_⟩, fun s t hm hf h hc => ?_⟩
  · exact State.arith_takesOverflow (op := fun a b => a + b) ha hb hd hm
  · exact State.arith_takesOverflow (op := fun a b => a - b) ha hb hd hm
  · exact State.arith_takesOverflow (op := fun a b => a * b) ha hb hd hm
  · obtain ⟨i, -, hm', -⟩ := mayLeave_of_step hf h hc (by decide)
    exact nomatch hm.symm.trans hm'

/-- Settles O23: the quotient 2^31 leaves the remainder 0, and the register value congruent to it is -2^31. -/
theorem divMinByMinusOne : Obligations.DivMinByMinusOne := by
  intro s rs1 rs2 rd a b d ha hb hd hsa hsb
  have hz : s.sreg b ≠ 0 := by rw [hsb]; decide
  refine ⟨fun hm => ?_, fun hm => execDiv_takesOverflow ha hb hd hz hm (by rw [hsa, hsb]; decide)⟩
  have hdiv : TruncDiv (s.sreg a) (s.sreg b) 2147483648 0 := by rw [hsa, hsb]; decide
  obtain ⟨t, ht, ⟨⟨k, hk⟩, -⟩, hrem, -⟩ := divCompletes s rs1 rs2 rd a b d _ _ ha hb hd hz hdiv (.inr hm)
  have hbounds := t.sreg_bounds d
  exact ⟨t, ht, by omega, BitVec.eq_of_toInt_eq hrem⟩

end Sys2Proof.Machine
end

section
/-! PROOFS. Jump targets that are no value of the pc (R170, R224). -/

namespace Sys2Proof.Machine

theorem State.jumpBy_badTarget {s : State} {ra : Byte} {r : Fin 32} {f : Int → Int} (hr : ra.toNat = r.val)
    (h : ¬ (0 ≤ s.sreg r ∧ 0 ≤ f (s.sreg r) ∧ f (s.sreg r) ≤ 4294967295)) :
    TakesFault (s.jumpBy ra f) s .badJump := by
  have hj := State.jumpBy_valid (s := s) (f := f) hr
  rwa [if_neg h] at hj

/-- Settles O28. -/
theorem badJumpTargetsFault : Obligations.BadJumpTargetsFault := by
  intro s ra r hr
  refine ⟨fun hneg => ?_, fun hmax => ?_, fun hmin => ?_⟩
  · have hbad : ∀ f, TakesFault (s.jumpBy ra f) s .badJump :=
      fun _ => State.jumpBy_badTarget hr fun ⟨hnonneg, _⟩ => absurd hneg (not_lt.mpr hnonneg)
    exact ⟨hbad _, hbad _, hbad _, fun heq => exec_jumpIfEqual_taken heq ra ▸ hbad _⟩
  · rw [exec_jumpForward]
    exact State.jumpBy_badTarget hr (by omega)
  · rw [exec_jumpBackward]
    exact State.jumpBy_badTarget hr (by omega)

end Sys2Proof.Machine
end

section
/-! PROOFS. The host operations Append-byte, Load-program and Reset (R121 to R123, R252). -/

namespace Sys2Proof.Machine

/-! ### The buffer after a host operation -/

/-- The byte pushed stands at the old `len` (R121). -/
theorem Memory.get_push_length (m : Memory) (h : m.wf = true) (b : Byte) : (m.push b).get m.length = some b := by
  rw [Memory.get_eq_bytes _ (m.wf_push b h), Memory.bytes_push]
  simp [Memory.bytes]

/-- A push leaves every other address as it was (R121). -/
theorem Memory.get_push_of_ne (m : Memory) (h : m.wf = true) (b : Byte) {a : Nat} (ha : a ≠ m.length) :
    (m.push b).get a = m.get a := by
  rcases Nat.lt_or_gt_of_ne ha with hlt | hgt
  · rw [Memory.get_eq_bytes _ (m.wf_push b h), Memory.bytes_push, m.get_eq_bytes h,
      List.getElem?_append_left (by simpa [Memory.bytes] using hlt)]
  · rw [m.get_none h hgt.le, Memory.get_none _ (m.wf_push b h) (by rw [Memory.length_push]; exact hgt)]

/-- The byte at an address of a loaded program (R122). -/
theorem Memory.get_ofBytes (bs : List Byte) (a : Nat) : (Memory.ofBytes bs).get a = bs[a]? := by
  rw [Memory.get_eq_bytes _ (Memory.wf_ofBytes bs), Memory.bytes_ofBytes]

@[simp] theorem sreg_hostReset (clear : Bool) (s : State) (i : Fin 32) : (hostReset clear s).sreg i = 0 := by
  have hreg : (hostReset clear s).reg i = (State.initial s.cfg).reg i := State.reg_congr (hostReset_x s clear) i
  exact (congrArg BitVec.toInt hreg).trans (State.sreg_initial s.cfg i)

/-! ### The obligations -/

/-- Settles O55. -/
theorem appendByteExtendsTheBuffer : Obligations.AppendByteExtendsTheBuffer := by
  intro s b hw
  refine ⟨fun hroom => ?_, fun hfull => if_neg (not_lt.mpr hfull)⟩
  exact ⟨_, if_pos hroom, s.prog.length_push b, s.prog.get_push_length hw b, fun _ ha => s.prog.get_push_of_ne hw b ha,
    ⟨fun _ => rfl, rfl, rfl⟩, rfl, rfl, rfl, rfl⟩

/-- Settles O56. -/
theorem loadProgramReplacesTheBuffer : Obligations.LoadProgramReplacesTheBuffer := by
  intro s bs
  refine ⟨fun hroom => ?_, fun hlong => if_neg (not_le.mpr hlong)⟩
  exact ⟨_, if_pos hroom, Memory.length_ofBytes bs, Memory.get_ofBytes bs, ⟨fun _ => rfl, rfl, rfl⟩, rfl, rfl, rfl, rfl⟩

/-- Settles O54. -/
theorem resetKeepsRemAndEq : Obligations.ResetKeepsRemAndEq := by
  intro s clear
  refine ⟨hostReset clear s, rfl, sreg_hostReset clear s, hostReset_pc s clear, hostReset_runState s clear,
    hostReset_stopCause s clear, rfl, hostReset_rem s clear, hostReset_eq s clear, hostReset_cfg s clear, ?_, ?_⟩
  · rintro rfl
    exact ⟨rfl, fun _ => rfl⟩
  · rintro rfl
    exact ⟨rfl, fun _ => rfl⟩

end Sys2Proof.Machine
end
